-- ==== Sys2Proof/Word.lean ====
section
/-! DEFINITION. The word types of the block (spec/00_scope.md rules R6, R7, R9, R10). -/

namespace Sys2Proof

/-- A 32-bit unsigned word: a chaining word, a schedule word, a digest word, a command word. -/
abbrev Word := BitVec 32

/-- A byte: of the buffer, of the data-in port, of the digest. -/
abbrev Byte := BitVec 8

/-- The 64-bit bit counter (R24). -/
abbrev Counter := BitVec 64

/-- An offset into the 64-byte buffer, 0 to 63 (R26, R51). -/
abbrev Offset := BitVec 6

/-- The number of a round, 0 to 63 (R31). -/
abbrev RoundIndex := BitVec 6

/-- Four words named as the document names them: A, B, C, D of the chaining state (R20), or the
working registers a, b, c, d of a pass (R36). -/
structure Quad where
  a : Word
  b : Word
  c : Word
  d : Word
deriving DecidableEq, Repr

end Sys2Proof
end

