-- ==== Sys2Proof/Config.lean ====
section
/-! DEFINITION. What the spec fixes as sizes (spec/00_scope.md rules R6, R7) and the free values:
constants without a body, of which nothing can be proved. -/

namespace Sys2Proof.Config

/-- `LENW` (R7, D5): the width of the PBYTES length operand. -/
abbrev lenWidth : Nat := 28

/-- `CAPW` (R7, D6): the width of the GDIG capacity operand. -/
abbrev capWidth : Nat := 28

/-- The size of the block and of the buffer, in bytes (R6). -/
abbrev blockBytes : Nat := 64

/-- The number of rounds of a pass (R6). -/
def rounds : Nat := 64

/-- How many words a digest has, and the least capacity GDIG asks for (R6, R141). -/
abbrev digestWords : Nat := 4

/-- What a free value may depend on (log 5): which draw it is, and everything the hardware's own,
deterministic result of a use after finalization depends on (R204): the `H`, `BL` and `BUF` it finds. -/
structure Spent where
  /-- The number of the draw. -/
  draw : Nat
  /-- The chaining state found. -/
  h : Quad
  /-- The bit counter found. -/
  bl : Counter
  /-- The buffer found, as offset and byte pairs. -/
  buf : List (Nat × Byte)
deriving DecidableEq, Repr

/-- DESIGN CHOICE (log 5), safe. The chaining word of a number in a consumed state: spec/93 U1, U8 let
nothing rest on it. -/
opaque freeWord : Spent → Nat → Word

/-- DESIGN CHOICE (log 5), safe. The byte count a consumed state's bit counter stands for (`BL` is
eight times it, so that `BL[2:0] = 0` as R24 says of every value of `BL`). -/
opaque freeByteCount : Spent → BitVec 61

/-- DESIGN CHOICE (log 5), safe. The buffer byte of an offset in a consumed state. -/
opaque freeByte : Spent → Nat → Byte

end Sys2Proof.Config
end

