-- ==== Sys2Proof/Syntax.lean ====
section
/-! DEFINITION. The command set (spec/00_scope.md R2; spec/30_encoding.md R82): one constructor per
row of spec/opcode_table.json. COMPRESS_BLOCK is internal and has no row (R91). -/

namespace Sys2Proof

/-- The four commands. `len` and `cap` are counts (R85, R86); that they fit their 28-bit fields is
checked by `Instr.wellFormed`. -/
inductive Instr where
  /-- INIT (R110): set the initial state. -/
  | init
  /-- PBYTE b (R126): absorb one immediate byte. -/
  | pbyte (b : Byte)
  /-- PBYTES len (R125): absorb the next `len` bytes of DIN. -/
  | pbytes (len : Nat)
  /-- GDIG cap (R140): pad, run the final passes, send the digest if `cap` is at least 4. -/
  | gdig (cap : Nat)
deriving DecidableEq, Repr

end Sys2Proof
end

