-- ==== Sys2Proof/WellFormed.lean ====
section
/-! DEFINITION. Which commands can be written: the operand ranges of spec/30_encoding.md R84 to R86,
whose breach R96 calls an assembly error. `b` of PBYTE is within its range by its type. -/

namespace Sys2Proof

/-- Every operand fits its field (R84, R85, R86, R96). -/
def Instr.wellFormed : Instr → Bool
  | .init => true
  | .pbyte _ => true
  | .pbytes len => decide (len < 2 ^ Config.lenWidth)
  | .gdig cap => decide (cap < 2 ^ Config.capWidth)

end Sys2Proof
end

