-- ==== Sys2Proof/Decode.lean ====
section
/-! DEFINITION. Command decoding (spec/30_encoding.md R80 to R83, R92) and encoding (R87 to R90). -/

namespace Sys2Proof

/-- The `OP` field, bits 31:28 of a command word (R81). -/
def opField (w : Word) : BitVec 4 := w.extractLsb' 28 4

/-- The `ARG` field, bits 27:0 of a command word (R81). -/
def argField (w : Word) : BitVec 28 := w.extractLsb' 0 28

/-- Bits 27:8 of a command word, which must be zero in a PBYTE (R82). -/
def argHigh (w : Word) : BitVec 20 := w.extractLsb' 8 20

/-- Bits 7:0 of a command word, the byte `b` of a PBYTE (R82, R84). -/
def argByte (w : Word) : Byte := w.extractLsb' 0 8

/-- The four classes of reserved words (R92). -/
inductive Reserved where
  /-- `OP = 0x0`. -/
  | opcodeZero
  /-- `OP` in `0x5 .. 0xF`. -/
  | opcodeHigh
  /-- `OP = 0x1` with `ARG` not 0. -/
  | initArgument
  /-- `OP = 0x2` with `ARG[27:8]` not 0. -/
  | pbyteArgument
deriving DecidableEq, Repr

/-- `decode` of R83, total on all words. The result ILLEGAL is an error that names the class of R92
the word is in. -/
def decode (w : Word) : Except Reserved Instr :=
  if opField w = 0x1#4 then
    if argField w = 0#28 then .ok .init else .error .initArgument
  else if opField w = 0x2#4 then
    if argHigh w = 0#20 then .ok (.pbyte (argByte w)) else .error .pbyteArgument
  else if opField w = 0x3#4 then .ok (.pbytes (argField w).toNat)
  else if opField w = 0x4#4 then .ok (.gdig (argField w).toNat)
  else if opField w = 0x0#4 then .error .opcodeZero
  else .error .opcodeHigh

/-- `word = OP * 2^28 + ARG` (R81). -/
def commandWord (op arg : Nat) : Word := BitVec.ofNat 32 (op * 2 ^ 28 + arg)

/-- The command word of a well-formed command (R87 to R90). -/
def encode : Instr → Word
  | .init => commandWord 0x1 0
  | .pbyte b => commandWord 0x2 b.toNat
  | .pbytes len => commandWord 0x3 len
  | .gdig cap => commandWord 0x4 cap

/-- The command word whose bits the opcode table numbers as `w`, of which `nbits` are given and the
others are 0. A command is one 32-bit word (R80), so no byte order enters. -/
def tableWord (nbits w : Nat) : Word := BitVec.ofNat 32 (w % 2 ^ nbits)

/-- What the decoder reads from an instruction whose bits are `w`. -/
def decodeTableWord (nbits w : Nat) : Option Instr := (decode (tableWord nbits w)).toOption

end Sys2Proof
end

