-- ==== Sys2Proof/Machine/State.lean ====
section
/-! DEFINITION. The state of the block and of its ports (spec/10_state.md; spec/20_memory.md section 7),
the state after reset (R38), and why a step could stop (never: spec/60_exceptions.md R200). -/

namespace Sys2Proof.Machine

/-- The byte-addressed storage `BUF` (R51): address and byte pairs, addresses rising, no entry equal to
what an unlisted address reads as (`Memory.wf` in Ops.lean says so). -/
abbrev Memory := List Host.Cell

/-- What follows a compression pass (R32): a pass starts only from ABSORB or PADDING. -/
inductive After where
  /-- Back to ABSORB: the pass emptied the buffer, `size` bytes of the command are still to come. -/
  | absorb (size : Nat)
  /-- Back to PADDING: the second block of the two-block case (R144). -/
  | padding
  /-- On to EMIT: the final pass is done (R147, R150). -/
  | emit
deriving DecidableEq, Repr

/-- The three parts of a pass in the round-granular view (R180). -/
inductive PassPart where
  /-- The schedule load and the load of the working registers (R171, R172). -/
  | load
  /-- The round numbered by `i` comes next (R175). -/
  | round
  /-- The chaining add comes next (R176). -/
  | add
deriving DecidableEq, Repr

/-- Which block a GDIG is padding (R144, R145). -/
inductive PadBlock where
  /-- The block that takes the marker. -/
  | marker
  /-- The fresh block of the two-block case. -/
  | fresh
deriving DecidableEq, Repr

/-- The five values of `PHASE` (R32). -/
inductive PhaseName where
  /-- No command in progress. -/
  | IDLE
  /-- A PBYTES or PBYTE is copying bytes into `BUF`. -/
  | ABSORB
  /-- A pass is running. -/
  | COMPRESS
  /-- A GDIG is writing the marker, the zero fill or the length field. -/
  | PADDING
  /-- A GDIG is sending digest words. -/
  | EMIT
deriving DecidableEq, Repr

/-- `PHASE` (R32), with the temporaries of the unfinished command (R125, R126, R140). -/
inductive Phase where
  /-- No command in progress. -/
  | idle
  /-- Bytes of DIN are being copied: the next goes to offset `pos`, `size` are still to come. -/
  | absorb (pos : Offset) (size : Nat)
  /-- A PBYTE is about to store the byte `b` of its word at offset `pos`. -/
  | absorbByte (pos : Offset) (b : Byte)
  /-- A pass is running. -/
  | compress (part : PassPart) (after : After)
  /-- A GDIG is writing padding. -/
  | padding (block : PadBlock)
  /-- A GDIG is sending the digest, word `k` is on offer (R75). -/
  | emit (k : Fin 4)
deriving DecidableEq, Repr

/-- Everything the spec gives the block, what stands at its ports, and the model's own counter. -/
structure State where
  /-- `H[0..3]`, the chaining state (R20). -/
  h : Quad
  /-- `BL`, the bit counter (R24). -/
  bl : Counter
  /-- `BUF[0..63]`, the input buffer (R27). -/
  buf : Memory
  /-- `FIN`, the finalized flag (R33). -/
  fin : Bool
  /-- `M[0..15]`, the message schedule (R36). -/
  m : Vector Word 16
  /-- `a, b, c, d`, the working registers (R36). -/
  w : Quad
  /-- `i`, the round index (R31). -/
  i : RoundIndex
  /-- `PHASE` (R32). -/
  phase : Phase
  /-- CMD port: the words the host offers, oldest first (R70). -/
  cmd : List Word
  /-- DIN port: the bytes the host offers, oldest first (R71). -/
  din : List Byte
  /-- DOUT port: how many further words the host stands ready to take (R75). -/
  takes : Nat
  /-- DOUT port: the words the host has taken, oldest first (R73). -/
  dout : List Word
  /-- RST: a reset event is pending (R74). -/
  rst : Bool
  /-- The model's own counter, from which free values are drawn (log 17). -/
  fresh : Nat
deriving DecidableEq, Repr

/-- No step faults: "The block raises no synchronous exception, ever" (R200). There is no constructor,
so no meaning can raise one. -/
inductive Fault where
deriving DecidableEq, Repr

/-- Why a meaning could refuse: none does. -/
inductive Refusal where
  /-- An instruction without a meaning, rejected by name in `exec`. No arm raises it. Safe. -/
  | notModelled (mnemonic : String)
deriving DecidableEq, Repr

/-- The machine right after reset (R38), with nothing offered at any port (log 2). The scratch state
is unspecified (R232): DESIGN CHOICE 0 (log 3), unsafe. -/
def State.reset : State where
  h := iv
  bl := 0#64
  buf := []
  fin := false
  m := Vector.replicate 16 0#32
  w := ⟨0#32, 0#32, 0#32, 0#32⟩
  i := 0#6
  phase := .idle
  cmd := []
  din := []
  takes := 0
  dout := []
  rst := false
  fresh := 0

end Sys2Proof.Machine
end

