-- ==== Sys2Proof/Machine/Ops.lean ====
section
/-! DEFINITION. The named operations over storage, registers and ports (spec/00_scope.md R11, R13, R14;
spec/20_memory.md; spec/43_compress.md R190 to R193), the reset event (R74) and the consumed state
(spec/93 U1, U8). The block takes no exceptions (R200, R209), so there is no operation for taking one:
the reset event is the only thing that diverts it. -/

namespace Sys2Proof

/-- Element `k` of four words: `H[k]`, with A to D as `H[0]` to `H[3]` (R20). -/
def Quad.get (q : Quad) : Fin 4 → Word
  | 0 => q.a
  | 1 => q.b
  | 2 => q.c
  | 3 => q.d

/-- Four words added one by one, modulo 2^32 (R176, R190). -/
def Quad.add (x y : Quad) : Quad := ⟨x.a + y.a, x.b + y.b, x.c + y.c, x.d + y.d⟩

namespace Machine

/-! ### The byte-addressed storage -/

/-- What an unlisted offset reads as: the reset content of `BUF` (R38). -/
def Memory.blank : Byte := 0x00#8

/-- The size of the address space: 64 offsets, no other exists (R51, R60). -/
def Memory.size : Nat := Config.blockBytes

/-- The canonical form, from the offset `lo` on: offsets rise, all exist, no listed byte is blank. -/
def Memory.wfFrom : Nat → Memory → Bool
  | _, [] => true
  | lo, (k, v) :: rest =>
    decide (lo ≤ k) && decide (k < Memory.size) && decide (v ≠ Memory.blank) && Memory.wfFrom (k + 1) rest

/-- The canonical form: equal storages are equal lists. -/
def Memory.wf (m : Memory) : Bool := Memory.wfFrom 0 m

/-- `BUF[p]` (R12). -/
def Memory.read : Memory → Nat → Byte
  | [], _ => Memory.blank
  | (k, v) :: rest, p => if p = k then v else Memory.read rest p

/-- A cell in front of a list, left out if it is blank. -/
def Memory.cons (p : Nat) (v : Byte) (rest : Memory) : Memory :=
  if v = Memory.blank then rest else (p, v) :: rest

/-- `BUF[p] <- v` (R12), keeping the canonical form. -/
def Memory.write : Memory → Nat → Byte → Memory
  | [], p, v => Memory.cons p v []
  | (k, x) :: rest, p, v =>
    if p < k then Memory.cons p v ((k, x) :: rest)
    else if p = k then Memory.cons p v rest
    else (k, x) :: Memory.write rest p v

/-- `for t in 0 .. n-1: BUF[p+t] <- v`. -/
def Memory.fill (m : Memory) (p : Nat) (v : Byte) : Nat → Memory
  | 0 => m
  | n + 1 => Memory.fill (m.write p v) (p + 1) v n

/-- The `n` bytes from offset `p` on as one little-endian number, the `MemRead` of R13. The byte order
of the block (R55) is decided here, in `leBytes` and in `digestByte`. -/
def leValue (byte : Nat → Byte) (p : Nat) : Nat → Nat
  | 0 => 0
  | n + 1 => (byte p).toNat + 256 * leValue byte (p + 1) n

/-- The `n` low-order bytes of `v`, least significant first (R13, `LE64` of R149). -/
def leBytes : Nat → Nat → List Byte
  | 0, _ => []
  | n + 1, v => BitVec.ofNat 8 v :: leBytes n (v / 256)

/-- Bytes written one after another from offset `p` on. -/
def Memory.writeAll (m : Memory) (p : Nat) : List Byte → Memory
  | [] => m
  | b :: rest => Memory.writeAll (m.write p b) (p + 1) rest

/-- `MemRead(p, n)` (R13). -/
def memRead (m : Memory) (p n : Nat) : Nat := leValue m.read p n

/-- `MemWrite(p, n, v)` (R13). -/
def memWrite (m : Memory) (p n v : Nat) : Memory := m.writeAll p (leBytes n v)

/-- `BUF[p] <- v` on the state. -/
def setBuf (s : State) (p : Nat) (v : Byte) : State := { s with buf := s.buf.write p v }

/-! ### Words -/

/-- `rotl(x, n)` (R193). The amounts used are 4 to 23, so how it is total at 0 or from 32 on does not
matter (93 U12). -/
def rotl (x : Word) (n : Nat) : Word := (x <<< n) ||| (x >>> (32 - n))

/-- `bswap32(x)` (00_scope glossary). -/
def bswap32 (x : Word) : Word :=
  x.extractLsb' 0 8 ++ x.extractLsb' 8 8 ++ x.extractLsb' 16 8 ++ x.extractLsb' 24 8

/-- `DIGEST[4k + t]`, the byte view of the digest (R152): byte `t` of `H[k]`, least significant first. -/
def digestByte (h : Quad) (k : Fin 4) (t : Nat) : Byte := (h.get k).extractLsb' (8 * t) 8

/-- `DW[k]`, the word the DOUT port carries (R153): digest byte `4k` in bits 31:24. -/
def digestWord (h : Quad) (k : Fin 4) : Word :=
  digestByte h k 0 ++ digestByte h k 1 ++ digestByte h k 2 ++ digestByte h k 3

/-- The four words a GDIG sends, A first (R150, R153). -/
def digestWords (h : Quad) : List Word := [digestWord h 0, digestWord h 1, digestWord h 2, digestWord h 3]

/-! ### Ports -/

/-- `DinPop()` when a byte is on offer (R14, R71). -/
def dinPop (s : State) (rest : List Byte) : State := { s with din := rest }

/-- `DoutPush(w)` when the host stands ready (R14, R73). -/
def doutPush (s : State) (w : Word) : State :=
  { s with dout := s.dout ++ [w], takes := s.takes - 1 }

/-- Which of the five values of R32 a phase is. -/
def Phase.name : Phase → PhaseName
  | .idle => .IDLE
  | .absorb _ _ => .ABSORB
  | .absorbByte _ _ => .ABSORB
  | .compress _ _ => .COMPRESS
  | .padding _ => .PADDING
  | .emit _ => .EMIT

/-- The PHASE register is written (R32). -/
def enter (p : Phase) (s : State) : State := { s with phase := p }

/-! ### Reset and the consumed state -/

/-- The reset event (R74, R230, R231): the block's state takes its reset values, whatever it was doing;
the ports keep what the host has offered and what it has taken (R72). The scratch state, which R232
leaves without a value, takes the one that `State.reset` names (log 3). -/
def resetEvent (s : State) : State :=
  { State.reset with
    cmd := s.cmd, din := s.din, takes := s.takes, dout := s.dout, fresh := s.fresh }

/-- A buffer of free bytes (log 5). -/
@[irreducible] def freeBuffer (d : Config.Spent) : Memory :=
  (List.range Memory.size).foldl (fun m p => m.write p (Config.freeByte d p)) []

/-- A free counter, a multiple of 8 as every value of `BL` is (R24; log 5). -/
def freeCounter (d : Config.Spent) : Counter := Config.freeByteCount d ++ 0#3

/-- What the free values of a use after finalization are drawn from (log 5). -/
def spent (s : State) : Config.Spent := ⟨s.fresh, s.h, s.bl, s.buf⟩

/-- What a command finds that is issued after finalization (93 U1, U8; R204): the ordinary rule will
run, but on a chaining state, a counter and a buffer of which nothing is known (DESIGN CHOICE, log 5). They
are drawn from the `H`, `BL` and `BUF` found, so that the hardware's own result is among what they may be: two
runs that finalized different messages need not agree on anything. -/
def consumed (s : State) : State :=
  { s with
    h := ⟨Config.freeWord (spent s) 0, Config.freeWord (spent s) 1, Config.freeWord (spent s) 2,
      Config.freeWord (spent s) 3⟩
    bl := freeCounter (spent s)
    buf := freeBuffer (spent s)
    fresh := s.fresh + 1 }

end Machine

end Sys2Proof
end

