-- ==== Sys2Proof/Machine/Fetch.lean ====
section
/-! DEFINITION. Taking a command word from the CMD port (spec/20_memory.md R70; spec/30_encoding.md R83,
R93). There is no program counter and no instruction memory (spec/10_state.md R30). -/

namespace Sys2Proof.Machine

/-- What is on offer at the CMD port. -/
inductive Offered where
  /-- No word: the block stays idle (R233). -/
  | nothing
  /-- A reserved word, and the state once it has been taken. -/
  | reserved (why : Reserved) (s : State)
  /-- A command, and the state once its word has been taken. -/
  | command (i : Instr) (s : State)
deriving DecidableEq, Repr

/-- `CmdPop()` (R14) and the decoding of the word (R83). -/
def cmdPop (s : State) : Offered :=
  match s.cmd with
  | [] => .nothing
  | w :: rest =>
    match decode w with
    | .ok i => .command i { s with cmd := rest }
    | .error why => .reserved why { s with cmd := rest }

/-- The state with the word offered next at an idle CMD port and no reset pending. -/
def offerNext (w : Word) (s : State) : State :=
  { s with cmd := w :: s.cmd, phase := .idle, rst := false }

end Sys2Proof.Machine
end

