-- ==== Sys2Proof/Machine/Operands.lean ====
section
/-! DEFINITION. What the commands take as operands: the offset derived from the counter, the number of
new bits, the state an update or a finalization works on (spec/10_state.md R26; spec/41_update.md R120;
spec/42_finalize.md R141, R142). -/

namespace Sys2Proof.Machine

/-- `used = (BL div 8) mod 64`, which is the field `BL[8:3]` (R26, R195). -/
def usedOf (bl : Counter) : Offset := bl.extractLsb' 3 6

/-- `used` of a state: the number of valid bytes of `BUF`. -/
def used (s : State) : Offset := usedOf s.bl

/-- The counter after `len` more bytes: `BL +64 zext_64(8 * len)` (R120, R194). It wraps modulo 2^64
(R25, D12). -/
def advance (bl : Counter) (len : Nat) : Counter := bl + BitVec.ofNat 64 (8 * len)

/-- The counter step of an update (R120). -/
def advanceCounter (s : State) (len : Nat) : State := { s with bl := advance s.bl len }

/-- `cap >= 4`, the only use of the capacity (R86, R141). -/
def capacitySuffices (cap : Nat) : Bool := decide (Config.digestWords ≤ cap)

/-- The state PBYTE, PBYTES and an effective GDIG work on: the state itself while `FIN = 0`, and a
consumed state after finalization (R131, R156, R204; log 5). -/
def workingState (s : State) : State := if s.fin then consumed s else s

end Sys2Proof.Machine
end

