-- ==== Sys2Proof/Machine/Compress.lean ====
section
/-! DEFINITION. COMPRESS_BLOCK, the internal pass (spec/43_compress.md R170 to R180): the schedule load,
the 64 rounds, the chaining add; and the function CF it computes (R170, R177). -/

namespace Sys2Proof.Machine

/-- The stage function `f` of round `i` (R173). -/
def stageFunction (i : RoundIndex) (b c d : Word) : Word :=
  if i.toNat ≤ 15 then (b &&& c) ||| (~~~b &&& d)
  else if i.toNat ≤ 31 then (d &&& b) ||| (~~~d &&& c)
  else if i.toNat ≤ 47 then b ^^^ c ^^^ d
  else c ^^^ (b ||| ~~~d)

/-- The word selection `g(i)` (R174). -/
def wordSelect (i : RoundIndex) : Fin 16 :=
  if i.toNat ≤ 15 then Fin.ofNat 16 i.toNat
  else if i.toNat ≤ 31 then Fin.ofNat 16 (5 * i.toNat + 1)
  else if i.toNat ≤ 47 then Fin.ofNat 16 (3 * i.toNat + 5)
  else Fin.ofNat 16 (7 * i.toNat)

/-- `fp` of R175: the four-term sum modulo 2^32. -/
def roundSum (m : Vector Word 16) (i : RoundIndex) (q : Quad) : Word :=
  stageFunction i q.b q.c q.d + q.a + roundConstant i + m[wordSelect i]

/-- One round on the working registers, all four written at once (R175, R179). -/
def roundQuad (m : Vector Word 16) (i : RoundIndex) (q : Quad) : Quad where
  a := q.d
  d := q.c
  c := q.b
  b := q.b + rotl (roundSum m i q) (rotationAmount i)

/-- `M[j]` of a block whose bytes are `byte`: `MemRead(4j, 4)` (R56, R171). -/
def scheduleWord (byte : Nat → Byte) (j : Nat) : Word := BitVec.ofNat 32 (leValue byte (4 * j) 4)

/-- The 16 schedule words of a block (R171). -/
def schedule (byte : Nat → Byte) : Vector Word 16 :=
  #v[scheduleWord byte 0, scheduleWord byte 1, scheduleWord byte 2, scheduleWord byte 3,
     scheduleWord byte 4, scheduleWord byte 5, scheduleWord byte 6, scheduleWord byte 7,
     scheduleWord byte 8, scheduleWord byte 9, scheduleWord byte 10, scheduleWord byte 11,
     scheduleWord byte 12, scheduleWord byte 13, scheduleWord byte 14, scheduleWord byte 15]

/-- The load step: `M` from `BUF`, the working registers from `H`, round 0 next (R171, R172). -/
def loadPass (s : State) : State := { s with m := schedule s.buf.read, w := s.h, i := 0#6 }

/-- The index after a round: one more, and 63 stays 63, because it never wraps within a pass (R31;
log 4). -/
def nextRound (i : RoundIndex) : RoundIndex := if i = 63#6 then i else i + 1#6

/-- The round step (R175, R180). -/
def roundStep (s : State) : State := { s with w := roundQuad s.m s.i s.w, i := nextRound s.i }

/-- `n` rounds. -/
def runRounds : Nat → State → State
  | 0, s => s
  | n + 1, s => runRounds n (roundStep s)

/-- The chaining add (R176). -/
def chainingAdd (s : State) : State := { s with h := s.h.add s.w }

/-- COMPRESS_BLOCK (R170): 1 load step, 64 round steps, 1 add step (R180). -/
@[irreducible] def compressBlock (s : State) : State := chainingAdd (runRounds Config.rounds (loadPass s))

/-- The working registers after the rounds `0 .. 63` on the schedule `m`. -/
@[irreducible] def allRounds (m : Vector Word 16) (q : Quad) : Quad :=
  (List.range Config.rounds).foldl (fun q i => roundQuad m (BitVec.ofNat 6 i) q) q

/-- `CF(h, blk)` (R170): a function of the chaining state and the 64 bytes of the block only (R177). -/
def compressionFunction (h : Quad) (byte : Nat → Byte) : Quad := h.add (allRounds (schedule byte) h)

end Sys2Proof.Machine
end

