-- ==== Sys2Proof/Machine/Flags.lean ====
section
/-! DEFINITION. The one flag of the block, FIN (spec/10_state.md R33, R34), and the carry between the two
halves of the counter, which no flag records (spec/41_update.md R124; spec/00_scope.md R8). -/

namespace Sys2Proof.Machine

/-- `FIN <- v`: INIT and reset write 0, a completed GDIG writes 1 (R33, R154). -/
def setFin (v : Bool) (s : State) : State := { s with fin := v }

/-- `BL_LO = BL[31:0]` (R8). -/
def counterLow (bl : Counter) : Word := bl.extractLsb' 0 32

/-- `BL_HI = BL[63:32]` (R8). -/
def counterHigh (bl : Counter) : Word := bl.extractLsb' 32 32

/-- The carry out of the low half: `1 if new_lo < BL_LO else 0` (R124). -/
def lowHalfCarry (low add : Word) : Word := if low + add < low then 1#32 else 0#32

/-- The counter step written on the two halves, `{BL_HI + carry, new_lo}` (R124). -/
def advanceHalves (bl : Counter) (add : Word) : Counter :=
  (counterHigh bl + lowHalfCarry (counterLow bl) add) ++ (counterLow bl + add)

end Sys2Proof.Machine
end

