-- ==== Sys2Proof/Machine/Finalize.lean ====
section
/-! DEFINITION. The GDIG command: padding, length encoder, digest (spec/42_finalize.md R140 to R157). -/

namespace Sys2Proof.Machine

/-- `for p in lo .. hi-1: BUF[p] <- 0x00`; empty where `hi ≤ lo` (R140). -/
def zeroFill (lo hi : Nat) (s : State) : State := { s with buf := s.buf.fill lo 0x00#8 (hi - lo) }

/-- The marker, `BUF[used] <- 0x80` (R143). -/
def appendMarker (s : State) : State := setBuf s (used s).toNat 0x80#8

/-- `63 - used < 8`: fewer than 8 bytes remain after the marker (R144). -/
def needsSecondBlock (u : Offset) : Bool := decide (63 - u.toNat < 8)

/-- The length encoder, `MemWrite(56, 8, L)` (R146). `L` is `BL`, which no GDIG writes (R142, R155). -/
def writeLength (s : State) : State := { s with buf := memWrite s.buf 56 8 s.bl.toNat }

/-- The fresh all-zero block of the two-block case with its length field (R144, R146). -/
@[irreducible] def padFresh (s : State) : State := writeLength (zeroFill 0 64 s)

/-- The marker block: filled to its end in the two-block case (R144), up to the length field, and with
it, in the one-block case (R145, R146). -/
@[irreducible] def padMarker (s : State) : State :=
  if needsSecondBlock (used s) then zeroFill ((used s).toNat + 1) 64 (appendMarker s)
  else writeLength (zeroFill ((used s).toNat + 1) 56 (appendMarker s))

/-- Padding and the final pass or passes (R143 to R148). -/
@[irreducible] def finalPasses (s : State) : State :=
  if needsSecondBlock (used s) then compressBlock (padFresh (compressBlock (padMarker s)))
  else compressBlock (padMarker s)

/-- The numbers of the digest words in the order they are sent (R150). -/
def allDigestWords : List (Fin 4) := [0, 1, 2, 3]

/-- The digest words are sent one by one, each when the host takes it; where it does not, the block waits
with that word on offer (R75; log 7). When the last one has been taken the GDIG is complete and `FIN`
is set (R154). -/
def emit : List (Fin 4) → State → State
  | [], s => enter .idle (setFin true s)
  | k :: rest, s =>
    if s.takes = 0 then enter (.emit k) s else emit rest (doutPush s (digestWord s.h k))

/-- GDIG `cap` (R140): nothing at all below four words (R141), else the padding, the passes and the
digest. -/
def execGdig (cap : Nat) (s : State) : Host.Outcome State Fault Refusal :=
  .next (if capacitySuffices cap then emit allDigestWords (finalPasses (workingState s)) else s)

end Sys2Proof.Machine
end

