-- ==== Sys2Proof/Machine/Init.lean ====
section
/-! DEFINITION. The INIT command (spec/40_init.md R110 to R114). -/

namespace Sys2Proof.Machine

/-- The persistent state of R38 is written; the scratch state stays (R112) and so do the ports (R113).
Legal in every state (R111). -/
def initialState (s : State) : State :=
  enter .idle (setFin false { s with h := iv, bl := 0#64, buf := [] })

/-- INIT (R110). -/
def execInit (s : State) : Host.Outcome State Fault Refusal := .next (initialState s)

end Sys2Proof.Machine
end

