-- ==== Sys2Proof/Machine/Update.lean ====
section
/-! DEFINITION. The update commands PBYTES and PBYTE (spec/41_update.md R120 to R132). -/

namespace Sys2Proof.Machine

/-- A message byte goes to `BUF[pos]`; at offset 63 it completes the block and a pass runs (R58, R121,
R122, R130). -/
def storeByte (pos : Offset) (b : Byte) (s : State) : State :=
  if pos = 63#6 then compressBlock (setBuf s pos.toNat b) else setBuf s pos.toNat b

/-- The copy loop of R125 in the order of R130: a byte is popped only when it is stored, a pass runs as
soon as the buffer is full, the offset after 63 is 0. `size` bytes are still to come, the next one goes
to `pos`. Where DIN has no byte the command waits (R72), unfinished, in ABSORB (log 7). -/
def absorb : Nat → Offset → State → State
  | 0, _, s => enter .idle s
  | size + 1, pos, s =>
    match s.din with
    | [] => enter (.absorb pos (size + 1)) s
    | b :: rest => absorb size (pos + 1) (storeByte pos b (dinPop s rest))

/-- The state a PBYTES works on: with `len = 0` it does nothing at all (R127), so it draws no consumed
state either. -/
def pbytesState (len : Nat) (s : State) : State := if len = 0 then s else workingState s

/-- PBYTES `len` (R125): `used` comes from the old counter, the counter advances by the whole length,
then the bytes are copied (R120). -/
def execPbytes (len : Nat) (s : State) : Host.Outcome State Fault Refusal :=
  .next (absorb len (used (pbytesState len s)) (advanceCounter (pbytesState len s) len))

/-- PBYTE `b` (R126): as PBYTES 1, but the byte comes from the command word. -/
def execPbyte (b : Byte) (s : State) : Host.Outcome State Fault Refusal :=
  .next (enter .idle (storeByte (used (workingState s)) b (advanceCounter (workingState s) 1)))

end Sys2Proof.Machine
end

