-- ==== Sys2Proof/Machine/Dispatch.lean ====
section
/-! DEFINITION. One arm per command (spec/00_scope.md R2). -/

namespace Sys2Proof.Machine

def exec (i : Instr) (s : State) : Host.Outcome State Fault Refusal :=
  match i with
  | .init => Sys2Proof.Machine.execInit s
  | .pbyte b => Sys2Proof.Machine.execPbyte b s
  | .pbytes len => Sys2Proof.Machine.execPbytes len s
  | .gdig cap => Sys2Proof.Machine.execGdig cap s

end Sys2Proof.Machine
end

