-- ==== Sys2Proof/Machine/Sequencer.lean ====
section
/-! DEFINITION. The block's sequencer (spec/10_state.md R30 to R32; spec/43_compress.md R180): `finish`
carries the command in progress on, to its end or to its next wait, which is what a step does with an
unfinished command; `start` and `tick` are the finer view that R16 and R180 allow, one byte, one round
or one word at a time. -/

namespace Sys2Proof.Machine

/-- The rest of a pass: the rounds from `i` on and the chaining add (R180). -/
def finishPass : PassPart → State → State
  | .load, s => compressBlock s
  | .round, s => chainingAdd (runRounds (Config.rounds - s.i.toNat) s)
  | .add, s => chainingAdd s

/-- The rest of a command once a pass is done. -/
def finishAfter : After → State → State
  | .absorb size, s => absorb size 0#6 s
  | .padding, s => emit allDigestWords (compressBlock (padFresh s))
  | .emit, s => emit allDigestWords s

/-- The rest of the command in progress: to its end, or to where it waits for the host. -/
def finish (s : State) : State :=
  match s.phase with
  | .idle => s
  | .absorb pos size => absorb size pos s
  | .absorbByte pos b => enter .idle (storeByte pos b s)
  | .compress part after => finishAfter after (finishPass part s)
  | .padding .marker => emit allDigestWords (finalPasses s)
  | .padding .fresh => emit allDigestWords (compressBlock (padFresh s))
  | .emit k => emit (allDigestWords.drop k.val) s

/-- What taking a command does at once, before its first `tick`: PHASE goes from IDLE to
ABSORB for an update and to PADDING for an effective GDIG, and stays IDLE for the others (R32); an update
advances the counter by its whole length (R120). -/
def start (i : Instr) (s : State) : State :=
  match i with
  | .init => initialState s
  | .pbyte b =>
    enter (.absorbByte (used (workingState s)) b) (advanceCounter (workingState s) 1)
  | .pbytes len =>
    enter (.absorb (used (pbytesState len s)) len) (advanceCounter (pbytesState len s) len)
  | .gdig cap =>
    if capacitySuffices cap then enter (.padding .marker) (workingState s) else s

/-- The phase that follows a pass (R32). -/
def After.phase : After → Phase
  | .absorb size => .absorb 0#6 size
  | .padding => .padding .fresh
  | .emit => .emit 0

/-- One action of the sequencer: one byte copied, one part of a pass, one block padded, one digest word
sent; nothing while the block is idle or waits for the host (R72, R75). -/
def tick (s : State) : State :=
  match s.phase with
  | .idle => s
  | .absorb _ 0 => enter .idle s
  | .absorb pos (size + 1) =>
    match s.din with
    | [] => s
    | b :: rest =>
      enter (if pos = 63#6 then .compress .load (.absorb size) else .absorb (pos + 1) size)
        (setBuf (dinPop s rest) pos.toNat b)
  | .absorbByte pos b =>
    enter (if pos = 63#6 then .compress .load (.absorb 0) else .absorb (pos + 1) 0) (setBuf s pos.toNat b)
  | .compress .load after => enter (.compress .round after) (loadPass s)
  | .compress .round after =>
    enter (.compress (if s.i = 63#6 then .add else .round) after) (roundStep s)
  | .compress .add after => enter after.phase (chainingAdd s)
  | .padding .marker =>
    enter (.compress .load (if needsSecondBlock (used s) then .padding else .emit)) (padMarker s)
  | .padding .fresh => enter (.compress .load .emit) (padFresh s)
  | .emit k =>
    if s.takes = 0 then s
    else if k = 3 then enter .idle (setFin true (doutPush s (digestWord s.h k)))
    else enter (.emit (k + 1)) (doutPush s (digestWord s.h k))

end Sys2Proof.Machine
end

