-- ==== Sys2Proof/Machine/Step.lean ====
section
/-! DEFINITION. One step of the machine. -/

namespace Sys2Proof.Machine

/-- One step. A pending reset wins (R74, R208 b). A command in progress is carried on (R70: no word is
taken before it has finished). An idle block takes the next word offered and runs it to its end or to its
first wait, as one event (R16, R70); it discards a reserved word (R93) and stays as it is where no word is
offered (R233). -/
def step (s : State) : Host.Outcome State Fault Refusal :=
  if s.rst then .next (resetEvent s)
  else if s.phase = .idle then
    match cmdPop s with
    | .nothing => .next s
    | .reserved _ t => .next t
    | .command i t => exec i t
  else .next (finish s)

/-- The state with the instruction whose bits are `w` offered where the next step takes its command: at
the head of the CMD port, the block idle, no reset pending. -/
def State.withFetchWord (s : State) (nbits w : Nat) : State := offerNext (tableWord nbits w) s

end Sys2Proof.Machine
end

