-- ==== Sys2Proof/Machine/HostSide.lean ====
section
/-! DEFINITION. What the host can do to the machine (spec/20_memory.md R69 to R75; spec/70_reset R231, R247):
actions that land between steps and change port state only. -/

namespace Sys2Proof.Machine

/-- One action of the host. -/
inductive HostAction where
  /-- Offer a command word, behind those already offered (R70). -/
  | offerCommand (w : Word)
  /-- Offer a message byte, behind those already offered (R71). -/
  | offerByte (b : Byte)
  /-- Stand ready to take one more digest word (R75). -/
  | readyForWord
  /-- Apply reset (R74). -/
  | applyReset
deriving DecidableEq, Repr

/-- The effect of a host action. -/
def HostAction.apply : HostAction → State → State
  | .offerCommand w, s => { s with cmd := s.cmd ++ [w] }
  | .offerByte b, s => { s with din := s.din ++ [b] }
  | .readyForWord, s => { s with takes := s.takes + 1 }
  | .applyReset, s => { s with rst := true }

/-- Command words, bytes and takes offered together. -/
def offer (words : List Word) (bytes : List Byte) (ready : Nat) (s : State) : State :=
  { s with cmd := s.cmd ++ words, din := s.din ++ bytes, takes := s.takes + ready }

end Sys2Proof.Machine
end

