-- ==== Sys2Proof/Machine/Assembler.lean ====
section
/-! DEFINITION. Assembler lines and pseudo-commands (spec/30_encoding.md R95 to R97) as abstract syntax:
what a line puts on CMD and on DIN. The text of a line is not parsed (log 21). -/

namespace Sys2Proof.Machine

/-- A line of assembler source, its numbers already read (R95, R97). -/
inductive AsmLine where
  /-- `INIT`. -/
  | init
  /-- `PBYTE b`. -/
  | pbyte (b : Nat)
  /-- `PBYTES len, data`. -/
  | pbytes (len : Nat) (data : List Byte)
  /-- `GDIG cap`. -/
  | gdig (cap : Nat)
  /-- The pseudo-command `MD5 data`. -/
  | md5 (data : List Byte)
  /-- The pseudo-command `PSTR "text"`. -/
  | pstr (text : String)
  /-- The pseudo-command `PBYTES len, data` with `len > 268435455`, as PBYTES commands that fit. A line
  of its own, because R96 calls such a `len` an error of the command PBYTES (log 21). -/
  | longPbytes (len : Nat) (data : List Byte)
deriving DecidableEq, Repr

/-- The largest `len` and `cap` (R85, R86). -/
def maxOperand : Nat := 2 ^ Config.lenWidth - 1

/-- The bytes of a quoted ASCII string, without a terminator (R96). -/
def textBytes (text : String) : List Byte := text.toList.map fun c => BitVec.ofNat 8 c.toNat

/-- The lengths of the PBYTES commands a long PBYTES becomes: as many of the largest length as fit, then
the remainder (R97; log 21). -/
def chunkLengths (len : Nat) : List Nat :=
  List.replicate (len / maxOperand) maxOperand ++
    if len % maxOperand = 0 then [] else [len % maxOperand]

/-- The expansion of `PBYTES len, data` for any `len` (R97): the command itself where `len` fits its field,
else the commands of its chunks. -/
def pbytesCommands (len : Nat) : List Instr :=
  if len ≤ maxOperand then [.pbytes len] else (chunkLengths len).map Instr.pbytes

/-- The commands and the data bytes of a line; `none` is an assembly error (R96). -/
def assemble : AsmLine → Option (List Instr × List Byte)
  | .init => some ([.init], [])
  | .pbyte b => if b ≤ 255 then some ([.pbyte (BitVec.ofNat 8 b)], []) else none
  | .pbytes len data => if len ≤ maxOperand ∧ data.length = len then some ([.pbytes len], data) else none
  | .gdig cap => if cap ≤ maxOperand then some ([.gdig cap], []) else none
  | .md5 data => some (.init :: (pbytesCommands data.length ++ [.gdig 4]), data)
  | .pstr text => some (pbytesCommands text.toList.length, textBytes text)
  | .longPbytes len data =>
    if maxOperand < len ∧ data.length = len then some (pbytesCommands len, data) else none

/-- A program: the words for CMD and the bytes for DIN, in order (95 part 3). -/
def assembleAll : List AsmLine → Option (List Word × List Byte)
  | [] => some ([], [])
  | l :: rest =>
    match assemble l, assembleAll rest with
    | some (is, bs), some (ws, cs) => some (is.map encode ++ ws, bs ++ cs)
    | _, _ => none

end Sys2Proof.Machine
end

