-- ==== Sys2Proof/Machine/Message.lean ====
section
/-! DEFINITION. What the block computes over whole messages (spec/10_state.md R22; spec/42_finalize.md R149,
R152, R158): pure functions on byte lists, which no meaning uses and the claims compare the machine with. -/

namespace Sys2Proof.Machine

/-- `LE64(v)`: eight bytes, least significant first, of `v` modulo 2^64 (R149). -/
def le64 (v : Nat) : List Byte := leBytes 8 v

/-- `z = (55 - n) mod 64`, the number of zero bytes of the padding (R149). -/
def padZeros (n : Nat) : Nat := (119 - n % 64) % 64

/-- `pad(m) = m ++ [0x80] ++ z zero bytes ++ LE64(8 * n)` (R149). -/
def pad (msg : List Byte) : List Byte :=
  msg ++ [0x80#8] ++ List.replicate (padZeros msg.length) 0x00#8 ++ le64 (8 * msg.length)

/-- Block number `q` of a byte sequence, `m[64q .. 64q+63]` (R22). -/
def blockAt (msg : List Byte) (q : Nat) : Nat → Byte := fun p => msg.getD (64 * q + p) 0x00#8

/-- The chaining value after the complete 64-byte blocks of a byte sequence, from `h` on:
`CF(... CF(CF(h, m[0..63]), m[64..127]) ...)` (R22). -/
def chain (h : Quad) (msg : List Byte) : Quad :=
  (List.range (msg.length / 64)).foldl (fun h q => compressionFunction h (blockAt msg q)) h

/-- The final chaining value of a message: over the blocks of its padding, from the IV (R158). -/
def messageHash (msg : List Byte) : Quad := chain iv (pad msg)

/-- The 16 digest bytes of a chaining state, A first, least significant byte first (R152). -/
def digestBytes (h : Quad) : List Byte :=
  (List.range 4).flatMap fun k => (List.range 4).map fun t => digestByte h (Fin.ofNat 4 k) t

/-- `MD5(m)` (R158). -/
def md5 (msg : List Byte) : List Byte := digestBytes (messageHash msg)

/-- The bytes of digest words, each taken most significant byte first (R153, R244). -/
def wordBytes (ws : List Word) : List Byte :=
  ws.flatMap fun w => [w.extractLsb' 24 8, w.extractLsb' 16 8, w.extractLsb' 8 8, w.extractLsb' 0 8]

/-- The valid bytes of the buffer, `BUF[0 .. used-1]` (R27). -/
def validBytes (s : State) : List Byte := (List.range (used s).toNat).map s.buf.read

/-- Byte `t` of the bit count, `L[8t+7 : 8t]` (R57, R146). -/
def lengthByte (bl : Counter) (t : Nat) : Byte := bl.extractLsb' (8 * t) 8

/-- The one block of the one-block case (R148): `u` message bytes, the marker, zeros, the length. -/
def oneBlock (byte : Nat → Byte) (u : Nat) (bl : Counter) (p : Nat) : Byte :=
  if p < u then byte p else if p = u then 0x80#8 else if p < 56 then 0x00#8 else lengthByte bl (p - 56)

/-- The first block of the two-block case (R148): `u` message bytes, the marker, zeros. -/
def markerBlock (byte : Nat → Byte) (u : Nat) (p : Nat) : Byte :=
  if p < u then byte p else if p = u then 0x80#8 else 0x00#8

/-- The second block of the two-block case (R148): 56 zeros, the length. -/
def freshBlock (bl : Counter) (p : Nat) : Byte :=
  if p < 56 then 0x00#8 else lengthByte bl (p - 56)

/-- `for t in 0 .. size-1: BUF[pos + t] <- DinPop()` of R125 on a given list of data bytes. -/
def copyBytes (pos : Nat) (data : List Byte) (s : State) : State :=
  { s with buf := s.buf.writeAll pos data }

/-- Whole block number `q` of the data: copied from offset 0 on, then a pass (R122). -/
def wholeBlock (data : List Byte) (s : State) (q : Nat) : State :=
  compressBlock (copyBytes 0 ((data.drop (64 * q)).take 64) s)

/-- `while size >= 64` of R125 (R122), `n` times. -/
def wholeBlocks (n : Nat) (data : List Byte) (s : State) : State :=
  (List.range n).foldl (wholeBlock data) s

/-- R122 and R123: whole blocks, then the remainder at offset 0. -/
def blocksAndTail (data : List Byte) (s : State) : State :=
  copyBytes 0 (data.drop (64 * (data.length / 64))) (wholeBlocks (data.length / 64) data s)

/-- The three steps of R125 as the rule writes them, after its counter step and from the offset `u`: the
head step (R121), the whole blocks (R122), the tail (R123). -/
def updateSteps (u : Offset) (data : List Byte) (s : State) : State :=
  if u = 0#6 then blocksAndTail data s
  else if data.length < 64 - u.toNat then copyBytes u.toNat data s
  else blocksAndTail (data.drop (64 - u.toNat))
    (compressBlock (copyBytes u.toNat (data.take (64 - u.toNat)) s))

end Sys2Proof.Machine
end

