-- ==== Sys2Proof/Safety.lean ====
section
/-! DEFINITION. What counts as a safe run: the caller contracts (spec/60_exceptions.md R203 to R205;
spec/70_reset R238, R240 to R242), the machine's invariant, and the state that holds a message (spec/10_state.md
R22, R24, R27). The machine checks none of the contracts. -/

namespace Sys2Proof.Machine

/-- `violation UseAfterFinalize` (R204, U1): a command other than INIT, and other than a GDIG that does
nothing, while `FIN = 1`. -/
def usesAfterFinalize (i : Instr) (s : State) : Bool :=
  s.fin && match i with
    | .init => false
    | .pbyte _ => true
    | .pbytes _ => true
    | .gdig cap => capacitySuffices cap

/-- The host has offered what the command consumes: the bytes of a PBYTES (R241), the four takes of an
effective GDIG (R242). -/
def portsServe (i : Instr) (s : State) : Bool :=
  match i with
  | .init => true
  | .pbyte _ => true
  | .pbytes len => decide (len ≤ s.din.length)
  | .gdig cap => !capacitySuffices cap || decide (Config.digestWords ≤ s.takes)

/-- The legal command sequences, the grammar of R238 (R111, R204): `fin` says whether the message is already
finalized, and then only INIT is legal, not even a GDIG that does nothing. That the bytes of a PBYTES are
offered is `portsServe`. -/
def legalFrom : Bool → List Instr → Bool
  | _, [] => true
  | _, .init :: rest => legalFrom false rest
  | fin, .pbyte _ :: rest => !fin && legalFrom fin rest
  | fin, .pbytes _ :: rest => !fin && legalFrom fin rest
  | fin, .gdig cap :: rest => !fin && legalFrom (capacitySuffices cap) rest

/-- The sequences without a use after finalization (R204, 93 U1). DESIGN CHOICE (log 22): wider than the
grammar of R238 by a GDIG that does nothing while `FIN = 1`, which R111 and R238 do not admit and which R204
calls harmless and 93 U1 lets a model allow. -/
def harmlessFrom : Bool → List Instr → Bool
  | _, [] => true
  | _, .init :: rest => harmlessFrom false rest
  | fin, .pbyte _ :: rest => !fin && harmlessFrom fin rest
  | fin, .pbytes _ :: rest => !fin && harmlessFrom fin rest
  | fin, .gdig cap :: rest =>
    if capacitySuffices cap then !fin && harmlessFrom true rest else harmlessFrom fin rest

/-- Commands run one after another, each to its end or its wait (R65). -/
def execAll : List Instr → State → Host.Outcome State Fault Refusal
  | [], s => .next s
  | i :: rest, s =>
    match exec i s with
    | .next t => execAll rest t
    | .fault r => .fault r
    | .refused r => .refused r

/-- The commands of a message's body (R238): all but an effective GDIG. -/
def bodyCommand : Instr → Bool
  | .init => true
  | .pbyte _ => true
  | .pbytes _ => true
  | .gdig cap => !capacitySuffices cap

/-- How many bytes the commands consume from DIN (R71). -/
def dataNeeded : List Instr → Nat
  | [] => 0
  | .init :: rest => dataNeeded rest
  | .pbyte _ :: rest => dataNeeded rest
  | .pbytes len :: rest => len + dataNeeded rest
  | .gdig _ :: rest => dataNeeded rest

/-- The message after the commands of a body, from `msg` on, with the bytes `data` on DIN: INIT starts a
new one (R245), the updates append (00_scope glossary, Message). -/
def messageAfter : List Byte → List Instr → List Byte → List Byte
  | msg, [], _ => msg
  | _, .init :: rest, data => messageAfter [] rest data
  | msg, .pbyte b :: rest, data => messageAfter (msg ++ [b]) rest data
  | msg, .pbytes len :: rest, data => messageAfter (msg ++ data.take len) rest (data.drop len)
  | msg, .gdig _ :: rest, data => messageAfter msg rest data

/-- Between steps the block is idle, or a PBYTES waits for data, or a GDIG waits for a take (R32, R72,
R75). The bytes owed fit the length operand, and the offset of the next byte is where the counter, already
advanced, will leave `used` when they have come. -/
def phaseOk (s : State) : Bool :=
  match s.phase with
  | .idle => true
  | .absorb pos size =>
    decide (0 < size) && decide (size < 2 ^ Config.lenWidth) &&
      decide ((pos.toNat + size) % 64 = (used s).toNat)
  | .absorbByte _ _ => false
  | .compress _ _ => false
  | .padding _ => false
  | .emit _ => true

/-- The invariant every step keeps: the buffer in its canonical form, within its 64 offsets (R51, R60);
`BL[2:0] = 0` (R24); a phase that can stand between steps. -/
def StateInv (s : State) : Prop :=
  s.buf.wf = true ∧ s.bl.extractLsb' 0 3 = 0#3 ∧ phaseOk s = true

/-- The block is idle, its buffer canonical, and it holds the message so far: `H` the chaining value of its complete blocks (R22),
`BL` its bit count modulo 2^64 (R24), `BUF[0 .. used-1]` its last bytes in order (R27), and it is not
finalized. -/
def Holds (msg : List Byte) (s : State) : Prop :=
  s.buf.wf = true ∧ s.phase = .idle ∧ s.fin = false ∧
  s.h = chain iv msg ∧
  s.bl = BitVec.ofNat 64 (8 * msg.length) ∧
  ∀ p, p < msg.length % 64 → s.buf.read p = msg.getD (64 * (msg.length / 64) + p) 0x00#8

end Sys2Proof.Machine
end

