-- ==== Sys2Proof/Certificates/Slice0/Obligations.lean ====
section
/-! DEFINITION. The statements about the model: of the encoding, of each command's effect and frame, of the
ports, of the pass, of the sequencer, and of whole messages. -/

open Sys2Proof Sys2Proof.Machine

/-! ### Encoding -/

/-- Words written out from spec/95 section 2.1 decode as its table says. -/
def Obligations.DecodeOfListedWords : Prop :=
  decode 0x10000000#32 = .ok .init ∧
  decode 0x20000061#32 = .ok (.pbyte 0x61#8) ∧
  decode 0x200000ff#32 = .ok (.pbyte 0xff#8) ∧
  decode 0x30000003#32 = .ok (.pbytes 3) ∧
  decode 0x3fffffff#32 = .ok (.pbytes 268435455) ∧
  decode 0x40000004#32 = .ok (.gdig 4) ∧
  decode 0x4fffffff#32 = .ok (.gdig 268435455) ∧
  decode 0x00000000#32 = .error .opcodeZero ∧
  decode 0x10000001#32 = .error .initArgument ∧
  decode 0x20000100#32 = .error .pbyteArgument ∧
  decode 0x50000000#32 = .error .opcodeHigh ∧
  decode 0xffffffff#32 = .error .opcodeHigh

/-- Decoding the word of a well-formed command gives the command back (R81 to R83, R87 to R90). -/
def Obligations.DecodeEncodeRoundTrip : Prop :=
  ∀ i : Instr, i.wellFormed = true → decode (encode i) = .ok i

/-- A word that decodes to a command is that command's one word, and the command is well-formed: no two
commands share a word (R83). -/
def Obligations.EncodeDecodeRoundTrip : Prop :=
  ∀ (w : Word) (i : Instr), decode w = .ok i → i.wellFormed = true ∧ encode i = w

/-- The reserved words are exactly those R92 lists, and no others. -/
def Obligations.ReservedWordsExactly : Prop :=
  ∀ w : Word, (∃ why, decode w = .error why) ↔
    (w.toNat < 0x10000000 ∨ (0x10000001 ≤ w.toNat ∧ w.toNat ≤ 0x1fffffff) ∨
      (0x20000100 ≤ w.toNat ∧ w.toNat ≤ 0x2fffffff) ∨ 0x50000000 ≤ w.toNat)

/-! ### Steps -/

/-- An idle block takes the word at the head of the CMD port and runs the command it decodes to (R70,
R83). -/
def Obligations.StepRunsDecodedCommand : Prop :=
  ∀ (s : State) (w : Word) (rest : List Word) (i : Instr),
    s.rst = false → s.phase = .idle → s.cmd = w :: rest → decode w = .ok i →
    step s = exec i { s with cmd := rest }

/-- A reserved word is taken and discarded: nothing else changes (R93). -/
def Obligations.StepDiscardsReservedWord : Prop :=
  ∀ (s : State) (w : Word) (rest : List Word) (why : Reserved),
    s.rst = false → s.phase = .idle → s.cmd = w :: rest → decode w = .error why →
    step s = .next { s with cmd := rest }

/-- With no word on offer an idle block does nothing (R233). -/
def Obligations.IdleStepWithoutCommandStays : Prop :=
  ∀ s : State, s.rst = false → s.phase = .idle → s.cmd = [] → step s = .next s

/-- A pending reset puts every piece of persistent state at its reset value, whatever the block was
doing, and for the persistent state it ends where INIT ends (R230); the bytes on offer and the words taken
stay (R231). That the command words and the takes stay too is the model's reading (log 12). -/
def Obligations.StepResetRestoresInitialState : Prop :=
  ∀ s : State, s.rst = true → ∃ t u, step s = .next t ∧
    t.h = ⟨0x67452301#32, 0xefcdab89#32, 0x98badcfe#32, 0x10325476#32⟩ ∧ t.bl = 0#64 ∧
    (∀ p, t.buf.read p = 0x00#8) ∧ t.fin = false ∧ t.phase = .idle ∧ t.rst = false ∧
    t.cmd = s.cmd ∧ t.din = s.din ∧ t.takes = s.takes ∧ t.dout = s.dout ∧
    exec .init s = .next u ∧ t.h = u.h ∧ t.bl = u.bl ∧ t.buf = u.buf ∧ t.fin = u.fin ∧
    t.phase = u.phase

/-- The block raises no exception: every step, from every state, answers a next state (R200). -/
def Obligations.EveryStepAnswersNextState : Prop := ∀ s : State, ∃ t, step s = .next t

/-- While a command is in progress a step carries it on and takes no word from the CMD port (R70). -/
def Obligations.BusyStepCarriesCommandOn : Prop :=
  ∀ s : State, s.rst = false → s.phase ≠ .idle →
    step s = .next (finish s) ∧ (finish s).cmd = s.cmd

/-- What each host action does, exactly (R69 to R71, R74, R75): a word goes behind the words on offer at CMD, a
byte behind those at DIN, a take is added, a reset becomes pending; the other ports and everything of the block
stay as they were (R37). -/
def Obligations.HostActionsTouchPortsOnly : Prop :=
  ∀ s : State,
    (∀ w, (HostAction.offerCommand w).apply s = { s with cmd := s.cmd ++ [w] }) ∧
    (∀ b, (HostAction.offerByte b).apply s = { s with din := s.din ++ [b] }) ∧
    HostAction.readyForWord.apply s = { s with takes := s.takes + 1 } ∧
    HostAction.applyReset.apply s = { s with rst := true }

/-! ### INIT -/

/-- INIT writes the persistent state and leaves the scratch state and the ports (R110). -/
def Obligations.InitWritesInitialState : Prop :=
  ∀ s : State, ∃ t, exec .init s = .next t ∧
    t.h = ⟨0x67452301#32, 0xefcdab89#32, 0x98badcfe#32, 0x10325476#32⟩ ∧ t.bl = 0#64 ∧
    (∀ p, t.buf.read p = 0x00#8) ∧ t.fin = false ∧ t.phase = .idle ∧
    t.m = s.m ∧ t.w = s.w ∧ t.i = s.i ∧
    t.cmd = s.cmd ∧ t.din = s.din ∧ t.takes = s.takes ∧ t.dout = s.dout ∧ t.rst = s.rst ∧
    t.fresh = s.fresh

/-- INIT is idempotent, and INIT directly after reset changes nothing (R114): neither in the state after
reset nor after a step that a reset event took. -/
def Obligations.InitIdempotent : Prop :=
  (∀ s t, exec .init s = .next t → exec .init t = .next t) ∧
  exec .init State.reset = .next State.reset ∧
  ∀ s t, s.rst = true → step s = .next t → exec .init t = .next t

/-! ### PBYTE and PBYTES -/

/-- The model's choice (log 5): while `FIN = 0` an update or a finalization works on the state as it is;
after finalization it works on a state that differs in `H`, `BL` and `BUF` only (and in the counter the free
values are drawn by), with `BL[2:0] = 0` and a canonical buffer. -/
def Obligations.WorkingStateKeepsTheRest : Prop :=
  ∀ s : State,
    (s.fin = false → workingState s = s) ∧
    (s.fin = true → workingState s =
      { s with
        h := (workingState s).h
        bl := (workingState s).bl
        buf := (workingState s).buf
        fresh := s.fresh + 1 }) ∧
    (s.fin = true → (workingState s).bl.extractLsb' 0 3 = 0#3 ∧ (workingState s).buf.wf = true)

/-- After finalization an update of at least one byte and an effective GDIG run their ordinary rule (R131,
R156, R204) on the consumed state, whose `H`, `BL` and `BUF` are free (the model's choice, log 5): they do
there what they do on that state with `FIN = 0`, and `FIN` stays 1. -/
def Obligations.AfterFinalizationOrdinaryRuleRuns : Prop :=
  ∀ (i : Instr) (s : State), usesAfterFinalize i s = true → i ≠ .pbytes 0 →
    ∃ t, exec i { workingState s with fin := false } = .next t ∧ exec i s = .next { t with fin := true }

/-- PBYTE: the byte goes to `BUF[used]`, the counter advances by 8, a pass runs exactly if `used = 63`,
every other byte and everything else stays (R126). It is PBYTES 1 with the byte from the word. -/
def Obligations.PbyteStoresByte : Prop :=
  ∀ (b : Byte) (s : State), s.fin = false → s.buf.wf = true → ∃ t, exec (.pbyte b) s = .next t ∧
    t.bl = s.bl + 8#64 ∧
    t.buf.read (used s).toNat = b ∧
    (∀ p, p ≠ (used s).toNat → t.buf.read p = s.buf.read p) ∧
    ((used s).toNat ≠ 63 → t.h = s.h ∧ t.m = s.m ∧ t.w = s.w ∧ t.i = s.i) ∧
    ((used s).toNat = 63 → t.h = compressionFunction s.h t.buf.read) ∧
    t.phase = .idle ∧ t.fin = false ∧ t.cmd = s.cmd ∧ t.din = s.din ∧ t.takes = s.takes ∧
    t.dout = s.dout ∧ t.rst = s.rst ∧ t.fresh = s.fresh ∧
    exec (.pbytes 1) { s with din := b :: s.din } = .next t

/-- PBYTES with its bytes on offer runs the steps of R125 on them: `used` from the old counter and the
counter advanced by the whole length (R120), then the head step (R121), the whole blocks (R122) and the tail
(R123); exactly `len` bytes are consumed. -/
def Obligations.PbytesFollowsThreeSteps : Prop :=
  ∀ (len : Nat) (data rest : List Byte) (s : State),
    s.fin = false → s.din = data ++ rest → data.length = len →
    exec (.pbytes len) s =
      .next (enter .idle (updateSteps (s.bl.extractLsb' 3 6) data
        { s with bl := s.bl + BitVec.ofNat 64 (8 * len), din := rest }))

/-- PBYTES 0 changes nothing (R127), finalized or not. -/
def Obligations.PbytesZeroChangesNothing : Prop :=
  ∀ s : State, s.phase = .idle → exec (.pbytes 0) s = .next s

/-- PBYTES consumes exactly `len` bytes, the next ones, as far as they are on offer, and is finished exactly
if they were; it leaves the CMD and DOUT ports and `FIN`. The other commands consume none (R71). -/
def Obligations.PbytesConsumesItsBytes : Prop :=
  (∀ (len : Nat) (s : State), ∃ t, exec (.pbytes len) s = .next t ∧
    t.din = s.din.drop len ∧ (t.phase = .idle ↔ len ≤ s.din.length) ∧
    t.fin = s.fin ∧ t.cmd = s.cmd ∧ t.takes = s.takes ∧ t.dout = s.dout ∧ t.rst = s.rst) ∧
  (∀ (i : Instr) (s t : State), (∀ len, i ≠ .pbytes len) → exec i s = .next t → t.din = s.din)

/-- The block never consumes a byte except on behalf of a running PBYTES, and never more than it still owes
(R71): a step that shortens DIN either carries on a command that owes bytes or takes a PBYTES word. -/
def Obligations.OnlyPbytesConsumesBytes : Prop :=
  ∀ s t : State, step s = .next t → t.din ≠ s.din →
    ∃ owed, t.din = s.din.drop owed ∧
      ((∃ pos, s.phase = .absorb pos owed) ∨ (∃ part, s.phase = .compress part (.absorb owed)) ∨
        (s.phase = .idle ∧ ∃ w rest, s.cmd = w :: rest ∧ decode w = .ok (.pbytes owed)))

/-- The bytes of the buffer after a PBYTES (R129): an offset the data reached holds the last data byte
stored there, every other offset what it held. -/
def Obligations.PbytesBufferBytes : Prop :=
  ∀ (len : Nat) (data rest : List Byte) (s : State),
    s.fin = false → s.din = data ++ rest → data.length = len → s.buf.wf = true →
    ∃ t, exec (.pbytes len) s = .next t ∧
      (∀ j, j < len → len ≤ j + 64 →
        t.buf.read (((used s).toNat + j) % 64) = data.getD j 0x00#8) ∧
      (∀ p, (∀ j, j < len → ((used s).toNat + j) % 64 ≠ p) → t.buf.read p = s.buf.read p)

/-- PBYTES advances `H` by one application of the compression function per completed block, in message
order, the blocks being those of the valid bytes followed by the data; `used` becomes `(u + len) mod 64`
(R128). With no completed block the scratch state stays. -/
def Obligations.PbytesChainsCompletedBlocks : Prop :=
  ∀ (len : Nat) (data rest : List Byte) (s : State),
    s.fin = false → s.din = data ++ rest → data.length = len → s.buf.wf = true →
    ∃ t, exec (.pbytes len) s = .next t ∧
      t.h = chain s.h (validBytes s ++ data) ∧
      (used t).toNat = ((used s).toNat + len) % 64 ∧
      ((used s).toNat + len < 64 → t.h = s.h ∧ t.m = s.m ∧ t.w = s.w ∧ t.i = s.i)

/-- A PBYTES that is short of data consumes what there is and waits in ABSORB for the rest, with the counter
advanced by the whole length; a step then changes nothing, whatever words the host offers, until it offers a
byte or resets (R72, R205). -/
def Obligations.PbytesWaitsForData : Prop :=
  ∀ (len : Nat) (s : State), s.din.length < len → s.rst = false →
    ∃ t pos, exec (.pbytes len) s = .next t ∧ t.din = [] ∧
      t.phase = .absorb pos (len - s.din.length) ∧
      (s.fin = false → pos = used s + BitVec.ofNat 6 s.din.length ∧
        t.bl = s.bl + BitVec.ofNat 64 (8 * len)) ∧
      ∀ words takes, step { t with cmd := words, takes := takes } =
        .next { t with cmd := words, takes := takes }

/-- Bytes that come late lead to the same end as bytes that were there (R72, R130, R247): a PBYTES that has
waited and is then given `y` ends as if `x` and `y` had been on offer from the start. -/
def Obligations.LateBytesEndAlike : Prop :=
  ∀ (len : Nat) (x y : List Byte) (s t : State), x.length < len →
    exec (.pbytes len) { s with din := x } = .next t →
    exec (.pbytes len) { s with din := x ++ y } = .next (finish { t with din := y })

/-- Chunking invariance (R66): one PBYTES of `m + n` bytes leaves the state that a PBYTES of `m` bytes and
then one of `n` bytes leave, from any state between commands with `FIN = 0` and the bytes on offer. The model
keeps stale bytes exactly, so the whole states are equal. -/
def Obligations.ChunkingInvariance : Prop :=
  ∀ (m n : Nat) (s : State), s.fin = false → m + n ≤ s.din.length →
    ∃ t, exec (.pbytes m) s = .next t ∧ exec (.pbytes n) t = exec (.pbytes (m + n)) s

/-- One PBYTE per byte leaves the state one PBYTES leaves (R66, R126). -/
def Obligations.ByteByByteEquivalence : Prop :=
  ∀ (data rest : List Byte) (s : State), s.fin = false → s.phase = .idle → s.din = data ++ rest →
    execAll (data.map Instr.pbyte) { s with din := rest } = exec (.pbytes data.length) s

/-! ### GDIG -/

/-- A GDIG with fewer than four words of capacity does nothing at all, and no GDIG sends more than four
words (R141). -/
def Obligations.GdigCapacityGuard : Prop :=
  (∀ (cap : Nat) (s : State), cap < 4 → exec (.gdig cap) s = .next s) ∧
  (∀ (cap : Nat) (s t : State), exec (.gdig cap) s = .next t →
    ∃ ws, t.dout = s.dout ++ ws ∧ ws.length ≤ 4)

/-- All capacities from four on behave alike (R86). -/
def Obligations.GdigCapacitiesAlike : Prop :=
  ∀ (cap : Nat) (s : State), 4 ≤ cap → exec (.gdig cap) s = exec (.gdig 4) s

/-- A GDIG with capacity, and with four takes ready, sends the four byte-swapped words of the final `H`, A
first, sets `FIN`, and leaves the counter and the other ports (R140, R150, R153, R154, R155). -/
def Obligations.GdigSendsDigestWords : Prop :=
  ∀ (cap : Nat) (s : State), s.fin = false → 4 ≤ cap → 4 ≤ s.takes → ∃ t, exec (.gdig cap) s = .next t ∧
    t.dout = s.dout ++ [bswap32 t.h.a, bswap32 t.h.b, bswap32 t.h.c, bswap32 t.h.d] ∧
    t.takes = s.takes - 4 ∧ t.fin = true ∧ t.phase = .idle ∧
    t.bl = s.bl ∧ t.cmd = s.cmd ∧ t.din = s.din ∧ t.rst = s.rst ∧ t.fresh = s.fresh

/-- The one-block case, `used <= 55` (R143, R145, R146, R147): `H` is the compression function of the block
made of the valid bytes, the marker, zeros up to offset 55 and the length. -/
def Obligations.GdigOneBlock : Prop :=
  ∀ (cap : Nat) (s : State), s.fin = false → 4 ≤ cap → s.buf.wf = true → (used s).toNat ≤ 55 →
    ∃ t, exec (.gdig cap) s = .next t ∧
      t.h = compressionFunction s.h (oneBlock s.buf.read (used s).toNat s.bl)

/-- The two-block case, `used >= 56` (R143, R144, R146, R147): a pass on the valid bytes, the marker and
zeros, then a pass on 56 zeros and the length. -/
def Obligations.GdigTwoBlocks : Prop :=
  ∀ (cap : Nat) (s : State), s.fin = false → 4 ≤ cap → s.buf.wf = true → 56 ≤ (used s).toNat →
    ∃ t, exec (.gdig cap) s = .next t ∧
      t.h = compressionFunction
        (compressionFunction s.h (markerBlock s.buf.read (used s).toNat)) (freshBlock s.bl)

/-- What an effective GDIG leaves besides `H`, exactly (R155): `BL` unchanged, in `BUF` and `M` the last block
compressed, in `a` to `d` the last values of the final pass, which is the one that `H` was added to last. That
`i` stays at 63 is the model's reading (log 4). -/
def Obligations.GdigEndState : Prop :=
  ∀ (cap : Nat) (s : State), s.fin = false → 4 ≤ cap → s.buf.wf = true →
    ∃ t h, exec (.gdig cap) s = .next t ∧ t.bl = s.bl ∧
      (∀ p, p < 64 → t.buf.read p =
        if (used s).toNat ≤ 55 then oneBlock s.buf.read (used s).toNat s.bl p else freshBlock s.bl p) ∧
      h = (if (used s).toNat ≤ 55 then s.h
        else compressionFunction s.h (markerBlock s.buf.read (used s).toNat)) ∧
      t.m = schedule t.buf.read ∧ t.w = allRounds t.m h ∧ t.h = h.add t.w ∧ t.i = 63#6

/-- A GDIG whose words are not all taken waits in EMIT with the next word on offer, `FIN` as it was; a step
then changes nothing, whatever words or bytes the host offers, until it takes a word or resets (R75, R205). -/
def Obligations.GdigWaitsForTakes : Prop :=
  ∀ (cap : Nat) (s : State) (k : Fin 4), 4 ≤ cap → s.takes = k.val → s.rst = false →
    ∃ t, exec (.gdig cap) s = .next t ∧ t.phase = .emit k ∧ t.takes = 0 ∧ t.fin = s.fin ∧
      t.dout = s.dout ++ (digestWords t.h).take k.val ∧
      ∀ words bytes, step { t with cmd := words, din := bytes } =
        .next { t with cmd := words, din := bytes }

/-- Takes that come late lead to the same end as takes that were ready (R75). -/
def Obligations.LateTakesEndAlike : Prop :=
  ∀ (cap a b : Nat) (s t : State), 4 ≤ cap → a < 4 →
    exec (.gdig cap) { s with takes := a } = .next t →
    exec (.gdig cap) { s with takes := a + b } = .next (finish { t with takes := b })

/-- The DOUT word is the byte-swapped state word, digest byte `4k` in bits 31:24 and `4k + 3` in bits 7:0,
and those bytes are the state word's, least significant first (R153). -/
def Obligations.DigestWordIsByteSwap : Prop :=
  ∀ (h : Quad) (k : Fin 4),
    digestWord h k = bswap32 (h.get k) ∧
    (digestWord h k).extractLsb' 24 8 = digestByte h k 0 ∧
    (digestWord h k).extractLsb' 16 8 = digestByte h k 1 ∧
    (digestWord h k).extractLsb' 8 8 = digestByte h k 2 ∧
    (digestWord h k).extractLsb' 0 8 = digestByte h k 3

/-- Only an effective GDIG produces transfers on DOUT: the digest words in order, all four if the host takes
four (R73). -/
def Obligations.OnlyGdigSends : Prop :=
  ∀ (i : Instr) (s t : State), exec i s = .next t →
    ((∃ cap, i = .gdig cap ∧ 4 ≤ cap) → t.dout = s.dout ++ (digestWords t.h).take s.takes) ∧
    ((¬ ∃ cap, i = .gdig cap ∧ 4 ≤ cap) → t.dout = s.dout)

/-- `FIN` after each command (R33, R110, R154): INIT clears it, a completed effective GDIG sets it, nothing
else writes it; it is 0 after reset. -/
def Obligations.FinalizedFlagWriters : Prop :=
  State.reset.fin = false ∧
  ∀ (i : Instr) (s t : State), exec i s = .next t →
    (i = .init → t.fin = false) ∧
    ((∃ cap, i = .gdig cap ∧ 4 ≤ cap) → 4 ≤ s.takes → t.fin = true) ∧
    (i ≠ .init → (¬ ((∃ cap, i = .gdig cap ∧ 4 ≤ cap) ∧ 4 ≤ s.takes)) → t.fin = s.fin)

/-! ### The pass -/

/-- One round (R175): the sum reduced modulo 2^32, the four registers written at once from the values before
the round. -/
def Obligations.RoundWritesRegisters : Prop :=
  ∀ (m : Vector Word 16) (i : RoundIndex) (q : Quad),
    (roundSum m i q).toNat =
      ((stageFunction i q.b q.c q.d).toNat + q.a.toNat + (roundConstant i).toNat +
        m[wordSelect i].toNat) % 2 ^ 32 ∧
    (roundQuad m i q).a = q.d ∧ (roundQuad m i q).d = q.c ∧ (roundQuad m i q).c = q.b ∧
    (roundQuad m i q).b = q.b + rotl (roundSum m i q) (rotationAmount i)

/-- Left rotation (R193): the formula on numbers, and where each bit goes. -/
def Obligations.RotationFormula : Prop :=
  ∀ (x : Word) (n : Nat), 1 ≤ n → n ≤ 31 →
    (rotl x n).toNat = (x.toNat * 2 ^ n) % 2 ^ 32 + x.toNat / 2 ^ (32 - n) ∧
    ∀ k, k < 32 → (rotl x n).getLsbD ((k + n) % 32) = x.getLsbD k

/-- The stage functions bit by bit (R173): stage 1 selects by `b`, stage 2 by `d`, stage 3 is the parity,
stage 4 is `c` inverted where `b` is 1 or `d` is 0. -/
def Obligations.StageFunctionBits : Prop :=
  ∀ (i : RoundIndex) (b c d : Word) (k : Nat), k < 32 →
    (i.toNat ≤ 15 → (stageFunction i b c d).getLsbD k =
      if b.getLsbD k then c.getLsbD k else d.getLsbD k) ∧
    (16 ≤ i.toNat → i.toNat ≤ 31 → (stageFunction i b c d).getLsbD k =
      if d.getLsbD k then b.getLsbD k else c.getLsbD k) ∧
    (32 ≤ i.toNat → i.toNat ≤ 47 → (stageFunction i b c d).getLsbD k =
      ((b.getLsbD k ^^ c.getLsbD k) ^^ d.getLsbD k)) ∧
    (48 ≤ i.toNat → (stageFunction i b c d).getLsbD k =
      (c.getLsbD k ^^ (b.getLsbD k || !d.getLsbD k)))

/-- The word selection as R174 writes it out, stage by stage. -/
def Obligations.WordSelectionLists : Prop :=
  (List.range 64).map (fun i => (wordSelect (BitVec.ofNat 6 i)).val) =
    [0, 1, 2, 3, 4, 5, 6, 7, 8, 9, 10, 11, 12, 13, 14, 15] ++
    [1, 6, 11, 0, 5, 10, 15, 4, 9, 14, 3, 8, 13, 2, 7, 12] ++
    [5, 8, 11, 14, 1, 4, 7, 10, 13, 0, 3, 6, 9, 12, 15, 2] ++
    [0, 7, 14, 5, 12, 3, 10, 1, 8, 15, 6, 13, 4, 11, 2, 9]

/-- A pass leaves in the schedule the 16 little-endian words of the buffer (R56), the byte at the lowest
offset being the least significant, and leaves the buffer. -/
def Obligations.ScheduleLittleEndian : Prop :=
  ∀ (s : State) (j : Fin 16),
    (compressBlock s).m[j].toNat =
      (s.buf.read (4 * j)).toNat + (s.buf.read (4 * j + 1)).toNat * 2 ^ 8 +
        (s.buf.read (4 * j + 2)).toNat * 2 ^ 16 + (s.buf.read (4 * j + 3)).toNat * 2 ^ 24 ∧
    (compressBlock s).buf = s.buf

/-- The length field (R57): byte `t` of the count at `BUF[56 + t]`, every other byte as it was; the schedule
then has the low half of the count in `M[14]` and the high half in `M[15]`. -/
def Obligations.LengthFieldBytes : Prop :=
  ∀ s : State, s.buf.wf = true →
    (∀ t, t < 8 → (writeLength s).buf.read (56 + t) = s.bl.extractLsb' (8 * t) 8) ∧
    (∀ p, p < 56 ∨ 64 ≤ p → (writeLength s).buf.read p = s.buf.read p) ∧
    (schedule (writeLength s).buf.read)[14] = s.bl.extractLsb' 0 32 ∧
    (schedule (writeLength s).buf.read)[15] = s.bl.extractLsb' 32 32

/-- The pass is a function of `H` and the 64 bytes of `BUF` only (R177): two states that agree on them get the
same `H`, `M`, `a` to `d` and `i`, whatever else they hold; and it touches nothing else (R178). -/
def Obligations.PassIsPure : Prop :=
  ∀ s t : State, s.h = t.h → (∀ p, p < 64 → s.buf.read p = t.buf.read p) →
    compressBlock s =
      { s with
        h := (compressBlock t).h
        m := (compressBlock t).m
        w := (compressBlock t).w
        i := (compressBlock t).i }

/-! ### The counter -/

/-- `used = (BL div 8) mod 64`, which is the field `BL[8:3]` (R26). -/
def Obligations.UsedIsCounterField : Prop :=
  ∀ s : State, (used s).toNat = s.bl.toNat / 8 % 64 ∧ used s = s.bl.extractLsb' 3 6

/-- The counter step on two 32-bit halves with a carry is the 64-bit step (R124). -/
def Obligations.CounterHalvesAgree : Prop :=
  ∀ (bl : Counter) (len : Nat), len < 2 ^ 28 →
    advance bl len = advanceHalves bl (BitVec.ofNat 32 (8 * len)) ∧
    (advance bl len).toNat = (bl.toNat + 8 * len) % 2 ^ 64

/-! ### The sequencer -/

/-- Taking one action of the sequencer does not change where the command in progress ends (R16, R180): one
byte, one part of a pass, one padded block or one digest word at a time, from any state. -/
def Obligations.TickKeepsTheOutcome : Prop := ∀ s : State, finish (tick s) = finish s

/-- A command run as one step is the command started and carried on (R16), from any state between
commands. -/
def Obligations.CommandIsStartThenFinish : Prop :=
  ∀ (i : Instr) (s : State), s.phase = .idle → exec i s = .next (finish (start i s))

/-- A command whose port obligations the host meets completes after finitely many actions of the sequencer,
in the state that the command run as one step leaves (R250). -/
def Obligations.ServedCommandsComplete : Prop :=
  ∀ (i : Instr) (s : State), s.phase = .idle → portsServe i s = true →
    ∃ n, (tick^[n] (start i s)).phase = .idle ∧ exec i s = .next (tick^[n] (start i s))

/-- The PHASE sequences of R32, over both moves of the sequencer. Taking a command: PBYTE and PBYTES go from
IDLE to ABSORB, an effective GDIG to PADDING, INIT and a GDIG below four words stay in IDLE. An action: a pass
starts only from ABSORB, after the byte at offset 63, or from PADDING, and goes back to ABSORB or PADDING or on
to EMIT; EMIT ends in IDLE; nothing leaves IDLE. -/
def Obligations.PhaseSuccessors : Prop :=
  (∀ (i : Instr) (s : State), s.phase = .idle →
    match i with
    | .init => (start i s).phase = .idle
    | .pbyte b => (start i s).phase = .absorbByte (used (workingState s)) b
    | .pbytes len => (start i s).phase = .absorb (used (pbytesState len s)) len
    | .gdig cap => (start i s).phase = if 4 ≤ cap then .padding .marker else .idle) ∧
  (∀ (i : Instr) (s : State), s.phase = .idle →
    (start i s).phase.name =
      match i with
      | .init => .IDLE
      | .pbyte _ => .ABSORB
      | .pbytes _ => .ABSORB
      | .gdig cap => if 4 ≤ cap then .PADDING else .IDLE) ∧
  ∀ s : State,
    match s.phase, (tick s).phase with
    | .idle, .idle => True
    | .absorb pos size, .absorb pos' size' => (pos' = pos ∧ size' = size ∧ s.din = []) ∨
        (pos ≠ 63#6 ∧ pos' = pos + 1 ∧ size = size' + 1)
    | .absorb pos size, .compress part (.absorb size') =>
        pos = 63#6 ∧ part = .load ∧ size = size' + 1
    | .absorb _ size, .idle => size = 0
    | .absorbByte pos _, .compress part after => pos = 63#6 ∧ part = .load ∧ after = .absorb 0
    | .absorbByte pos _, .absorb pos' size => pos ≠ 63#6 ∧ pos' = pos + 1 ∧ size = 0
    | .compress part after, .compress part' after' => after' = after ∧
        ((part = .load ∧ part' = .round) ∨ (part = .round ∧ (part' = .round ∨ part' = .add)))
    | .compress part after, .absorb pos size => part = .add ∧ after = .absorb size ∧ pos = 0#6
    | .compress part after, .padding block => part = .add ∧ after = .padding ∧ block = .fresh
    | .compress part after, .emit k => part = .add ∧ after = .emit ∧ k = 0
    | .padding .marker, .compress part after =>
        part = .load ∧ after = if 56 ≤ (used s).toNat then .padding else .emit
    | .padding .fresh, .compress part after => part = .load ∧ after = .emit
    | .emit k, .emit k' => (k' = k ∧ s.takes = 0) ∨ (k'.val = k.val + 1 ∧ 0 < s.takes)
    | .emit k, .idle => k = 3 ∧ 0 < s.takes
    | _, _ => False

/-! ### Invariants and whole messages -/

/-- The state after reset meets the invariant. -/
def Obligations.ResetMeetsInvariant : Prop := StateInv State.reset

/-- Every step keeps the invariant: a canonical buffer within its 64 offsets (R51, R60), `BL[2:0] = 0` (R24),
and a phase that can stand between steps (R32). -/
def Obligations.StepKeepsInvariant : Prop :=
  ∀ s t : State, StateInv s → step s = .next t → StateInv t

/-- The state after reset, and the state after INIT, hold the empty message (R38, R110, R237). -/
def Obligations.ResetAndInitHoldEmptyMessage : Prop :=
  Holds [] State.reset ∧ ∀ s : State, ∃ t, exec .init s = .next t ∧ Holds [] t

/-- The updates extend the message the block holds: `H`, `BL` and the valid bytes of `BUF` stay what R22, R24
and R27 say of the longer message. -/
def Obligations.UpdatesExtendMessage : Prop :=
  ∀ (msg : List Byte) (s : State), Holds msg s →
    (∀ b, ∃ t, exec (.pbyte b) s = .next t ∧ Holds (msg ++ [b]) t) ∧
    (∀ data rest, s.din = data ++ rest →
      ∃ t, exec (.pbytes data.length) s = .next t ∧ Holds (msg ++ data) t ∧ t.din = rest)

/-- The blocks compressed between INIT and the end of GDIG are those of the padded message: an effective GDIG
on a block that holds `msg` sends `MD5(msg)` (R149, R158). -/
def Obligations.GdigSendsMessageDigest : Prop :=
  ∀ (msg : List Byte) (cap : Nat) (s : State), Holds msg s → 4 ≤ cap → 4 ≤ s.takes →
    ∃ t ws, exec (.gdig cap) s = .next t ∧ t.dout = s.dout ++ ws ∧ ws.length = 4 ∧
      wordBytes ws = md5 msg

/-- Whole sessions (R158, R238): INIT in any state, then any body of INIT, PBYTE, PBYTES and ineffective GDIG
commands with their bytes on offer, then an effective GDIG with four takes ready, sends the digest of the
message the body makes, however it is split. -/
def Obligations.SessionSendsMd5 : Prop :=
  ∀ (body : List Instr) (cap : Nat) (s : State),
    body.all bodyCommand = true → dataNeeded body ≤ s.din.length → 4 ≤ cap → 4 ≤ s.takes →
    ∃ t ws, execAll (.init :: (body ++ [.gdig cap])) s = .next t ∧ t.dout = s.dout ++ ws ∧
      wordBytes ws = md5 (messageAfter [] body s.din) ∧ t.fin = true ∧
      t.din = s.din.drop (dataNeeded body)

/-- The two known digests (spec/95 S1, S2). -/
def Obligations.KnownDigests : Prop :=
  md5 [] = [0xd4#8, 0x1d#8, 0x8c#8, 0xd9#8, 0x8f#8, 0x00#8, 0xb2#8, 0x04#8,
    0xe9#8, 0x80#8, 0x09#8, 0x98#8, 0xec#8, 0xf8#8, 0x42#8, 0x7e#8] ∧
  md5 [0x61#8, 0x62#8, 0x63#8] = [0x90#8, 0x01#8, 0x50#8, 0x98#8, 0x3c#8, 0xd2#8, 0x4f#8, 0xb0#8,
    0xd6#8, 0x96#8, 0x3f#8, 0x7d#8, 0x28#8, 0xe1#8, 0x7f#8, 0x72#8]

/-- A command sequence without a use after finalization, from a block that is not finalized, never uses a free
value: the model's counter of them stands still (the model's choice of log 5). Every legal sequence of R238 is
such a sequence; the converse fails by the model's choice of log 22. -/
def Obligations.LegalRunsDrawNoFreeValue : Prop :=
  (∀ (fin : Bool) (cs : List Instr), legalFrom fin cs = true → harmlessFrom fin cs = true) ∧
  ∀ (cs : List Instr) (s t : State), s.fin = false → harmlessFrom false cs = true →
    execAll cs s = .next t → t.fresh = s.fresh

/-! ### The assembler -/

/-- `MD5 data` is INIT, PBYTES n, GDIG 4 with the data on DIN, where a PBYTES n that does not fit its field is
PBYTES commands that do, splitting the data in order (R97). -/
def Obligations.AssembledMd5 : Prop :=
  ∀ data : List Byte,
    (data.length ≤ 268435455 →
      assembleAll [.md5 data] =
        some ([0x10000000#32, BitVec.ofNat 32 (0x30000000 + data.length), 0x40000004#32], data)) ∧
    (268435455 < data.length → ∃ lens : List Nat, (∀ n ∈ lens, n ≤ 268435455) ∧
      lens.sum = data.length ∧
      assembleAll [.md5 data] =
        some (0x10000000#32 :: (lens.map (fun n => BitVec.ofNat 32 (0x30000000 + n)) ++
          [0x40000004#32]), data))

/-- Every line that assembles gives well-formed commands that consume exactly the bytes it puts on DIN (R96,
R97). A command line assembles exactly if its operand fits and its data has the stated length (R96); the
pseudo-commands MD5 and PSTR always assemble, a long PBYTES exactly if its length is above the field and is that
of its data (R97). -/
def Obligations.AssembledLinesFit : Prop :=
  (∀ (l : AsmLine) (cs : List Instr) (data : List Byte), assemble l = some (cs, data) →
    cs.all Instr.wellFormed = true ∧ dataNeeded cs = data.length) ∧
  ∀ l : AsmLine, (assemble l).isSome = true ↔
    match l with
    | .init => True
    | .pbyte b => b ≤ 255
    | .pbytes len data => len ≤ 268435455 ∧ data.length = len
    | .gdig cap => cap ≤ 268435455
    | .md5 _ => True
    | .pstr _ => True
    | .longPbytes len data => 268435455 < len ∧ data.length = len
end

