-- ==== Sys2Proof/Laws/State.lean ====
section
/-! SUPPORT. One lemma per field per update of the state, so that no later proof unfolds a record update. -/

namespace Sys2Proof.Machine

/-! ### setBuf -/

@[simp] theorem setBuf_h (s : State) (p : Nat) (v : Byte) : (setBuf s p v).h = s.h := rfl
@[simp] theorem setBuf_bl (s : State) (p : Nat) (v : Byte) : (setBuf s p v).bl = s.bl := rfl
@[simp] theorem setBuf_buf (s : State) (p : Nat) (v : Byte) : (setBuf s p v).buf = s.buf.write p v := rfl
@[simp] theorem setBuf_fin (s : State) (p : Nat) (v : Byte) : (setBuf s p v).fin = s.fin := rfl
@[simp] theorem setBuf_m (s : State) (p : Nat) (v : Byte) : (setBuf s p v).m = s.m := rfl
@[simp] theorem setBuf_w (s : State) (p : Nat) (v : Byte) : (setBuf s p v).w = s.w := rfl
@[simp] theorem setBuf_i (s : State) (p : Nat) (v : Byte) : (setBuf s p v).i = s.i := rfl
@[simp] theorem setBuf_phase (s : State) (p : Nat) (v : Byte) : (setBuf s p v).phase = s.phase := rfl
@[simp] theorem setBuf_cmd (s : State) (p : Nat) (v : Byte) : (setBuf s p v).cmd = s.cmd := rfl
@[simp] theorem setBuf_din (s : State) (p : Nat) (v : Byte) : (setBuf s p v).din = s.din := rfl
@[simp] theorem setBuf_takes (s : State) (p : Nat) (v : Byte) : (setBuf s p v).takes = s.takes := rfl
@[simp] theorem setBuf_dout (s : State) (p : Nat) (v : Byte) : (setBuf s p v).dout = s.dout := rfl
@[simp] theorem setBuf_rst (s : State) (p : Nat) (v : Byte) : (setBuf s p v).rst = s.rst := rfl
@[simp] theorem setBuf_fresh (s : State) (p : Nat) (v : Byte) : (setBuf s p v).fresh = s.fresh := rfl

/-! ### dinPop -/

@[simp] theorem dinPop_h (s : State) (rest : List Byte) : (dinPop s rest).h = s.h := rfl
@[simp] theorem dinPop_bl (s : State) (rest : List Byte) : (dinPop s rest).bl = s.bl := rfl
@[simp] theorem dinPop_buf (s : State) (rest : List Byte) : (dinPop s rest).buf = s.buf := rfl
@[simp] theorem dinPop_fin (s : State) (rest : List Byte) : (dinPop s rest).fin = s.fin := rfl
@[simp] theorem dinPop_m (s : State) (rest : List Byte) : (dinPop s rest).m = s.m := rfl
@[simp] theorem dinPop_w (s : State) (rest : List Byte) : (dinPop s rest).w = s.w := rfl
@[simp] theorem dinPop_i (s : State) (rest : List Byte) : (dinPop s rest).i = s.i := rfl
@[simp] theorem dinPop_phase (s : State) (rest : List Byte) : (dinPop s rest).phase = s.phase := rfl
@[simp] theorem dinPop_cmd (s : State) (rest : List Byte) : (dinPop s rest).cmd = s.cmd := rfl
@[simp] theorem dinPop_din (s : State) (rest : List Byte) : (dinPop s rest).din = rest := rfl
@[simp] theorem dinPop_takes (s : State) (rest : List Byte) : (dinPop s rest).takes = s.takes := rfl
@[simp] theorem dinPop_dout (s : State) (rest : List Byte) : (dinPop s rest).dout = s.dout := rfl
@[simp] theorem dinPop_rst (s : State) (rest : List Byte) : (dinPop s rest).rst = s.rst := rfl
@[simp] theorem dinPop_fresh (s : State) (rest : List Byte) : (dinPop s rest).fresh = s.fresh := rfl

/-! ### doutPush -/

@[simp] theorem doutPush_h (s : State) (x : Word) : (doutPush s x).h = s.h := rfl
@[simp] theorem doutPush_bl (s : State) (x : Word) : (doutPush s x).bl = s.bl := rfl
@[simp] theorem doutPush_buf (s : State) (x : Word) : (doutPush s x).buf = s.buf := rfl
@[simp] theorem doutPush_fin (s : State) (x : Word) : (doutPush s x).fin = s.fin := rfl
@[simp] theorem doutPush_m (s : State) (x : Word) : (doutPush s x).m = s.m := rfl
@[simp] theorem doutPush_w (s : State) (x : Word) : (doutPush s x).w = s.w := rfl
@[simp] theorem doutPush_i (s : State) (x : Word) : (doutPush s x).i = s.i := rfl
@[simp] theorem doutPush_phase (s : State) (x : Word) : (doutPush s x).phase = s.phase := rfl
@[simp] theorem doutPush_cmd (s : State) (x : Word) : (doutPush s x).cmd = s.cmd := rfl
@[simp] theorem doutPush_din (s : State) (x : Word) : (doutPush s x).din = s.din := rfl
@[simp] theorem doutPush_takes (s : State) (x : Word) : (doutPush s x).takes = s.takes - 1 := rfl
@[simp] theorem doutPush_dout (s : State) (x : Word) : (doutPush s x).dout = s.dout ++ [x] := rfl
@[simp] theorem doutPush_rst (s : State) (x : Word) : (doutPush s x).rst = s.rst := rfl
@[simp] theorem doutPush_fresh (s : State) (x : Word) : (doutPush s x).fresh = s.fresh := rfl

/-! ### enter -/

@[simp] theorem enter_h (p : Phase) (s : State) : (enter p s).h = s.h := rfl
@[simp] theorem enter_bl (p : Phase) (s : State) : (enter p s).bl = s.bl := rfl
@[simp] theorem enter_buf (p : Phase) (s : State) : (enter p s).buf = s.buf := rfl
@[simp] theorem enter_fin (p : Phase) (s : State) : (enter p s).fin = s.fin := rfl
@[simp] theorem enter_m (p : Phase) (s : State) : (enter p s).m = s.m := rfl
@[simp] theorem enter_w (p : Phase) (s : State) : (enter p s).w = s.w := rfl
@[simp] theorem enter_i (p : Phase) (s : State) : (enter p s).i = s.i := rfl
@[simp] theorem enter_phase (p : Phase) (s : State) : (enter p s).phase = p := rfl
@[simp] theorem enter_cmd (p : Phase) (s : State) : (enter p s).cmd = s.cmd := rfl
@[simp] theorem enter_din (p : Phase) (s : State) : (enter p s).din = s.din := rfl
@[simp] theorem enter_takes (p : Phase) (s : State) : (enter p s).takes = s.takes := rfl
@[simp] theorem enter_dout (p : Phase) (s : State) : (enter p s).dout = s.dout := rfl
@[simp] theorem enter_rst (p : Phase) (s : State) : (enter p s).rst = s.rst := rfl
@[simp] theorem enter_fresh (p : Phase) (s : State) : (enter p s).fresh = s.fresh := rfl

/-! ### setFin -/

@[simp] theorem setFin_h (v : Bool) (s : State) : (setFin v s).h = s.h := rfl
@[simp] theorem setFin_bl (v : Bool) (s : State) : (setFin v s).bl = s.bl := rfl
@[simp] theorem setFin_buf (v : Bool) (s : State) : (setFin v s).buf = s.buf := rfl
@[simp] theorem setFin_fin (v : Bool) (s : State) : (setFin v s).fin = v := rfl
@[simp] theorem setFin_m (v : Bool) (s : State) : (setFin v s).m = s.m := rfl
@[simp] theorem setFin_w (v : Bool) (s : State) : (setFin v s).w = s.w := rfl
@[simp] theorem setFin_i (v : Bool) (s : State) : (setFin v s).i = s.i := rfl
@[simp] theorem setFin_phase (v : Bool) (s : State) : (setFin v s).phase = s.phase := rfl
@[simp] theorem setFin_cmd (v : Bool) (s : State) : (setFin v s).cmd = s.cmd := rfl
@[simp] theorem setFin_din (v : Bool) (s : State) : (setFin v s).din = s.din := rfl
@[simp] theorem setFin_takes (v : Bool) (s : State) : (setFin v s).takes = s.takes := rfl
@[simp] theorem setFin_dout (v : Bool) (s : State) : (setFin v s).dout = s.dout := rfl
@[simp] theorem setFin_rst (v : Bool) (s : State) : (setFin v s).rst = s.rst := rfl
@[simp] theorem setFin_fresh (v : Bool) (s : State) : (setFin v s).fresh = s.fresh := rfl

/-! ### advanceCounter -/

@[simp] theorem advanceCounter_h (s : State) (len : Nat) : (advanceCounter s len).h = s.h := rfl
@[simp] theorem advanceCounter_bl (s : State) (len : Nat) : (advanceCounter s len).bl = advance s.bl len := rfl
@[simp] theorem advanceCounter_buf (s : State) (len : Nat) : (advanceCounter s len).buf = s.buf := rfl
@[simp] theorem advanceCounter_fin (s : State) (len : Nat) : (advanceCounter s len).fin = s.fin := rfl
@[simp] theorem advanceCounter_m (s : State) (len : Nat) : (advanceCounter s len).m = s.m := rfl
@[simp] theorem advanceCounter_w (s : State) (len : Nat) : (advanceCounter s len).w = s.w := rfl
@[simp] theorem advanceCounter_i (s : State) (len : Nat) : (advanceCounter s len).i = s.i := rfl
@[simp] theorem advanceCounter_phase (s : State) (len : Nat) : (advanceCounter s len).phase = s.phase := rfl
@[simp] theorem advanceCounter_cmd (s : State) (len : Nat) : (advanceCounter s len).cmd = s.cmd := rfl
@[simp] theorem advanceCounter_din (s : State) (len : Nat) : (advanceCounter s len).din = s.din := rfl
@[simp] theorem advanceCounter_takes (s : State) (len : Nat) : (advanceCounter s len).takes = s.takes := rfl
@[simp] theorem advanceCounter_dout (s : State) (len : Nat) : (advanceCounter s len).dout = s.dout := rfl
@[simp] theorem advanceCounter_rst (s : State) (len : Nat) : (advanceCounter s len).rst = s.rst := rfl
@[simp] theorem advanceCounter_fresh (s : State) (len : Nat) : (advanceCounter s len).fresh = s.fresh := rfl

/-! ### loadPass -/

@[simp] theorem loadPass_h (s : State) : (loadPass s).h = s.h := rfl
@[simp] theorem loadPass_bl (s : State) : (loadPass s).bl = s.bl := rfl
@[simp] theorem loadPass_buf (s : State) : (loadPass s).buf = s.buf := rfl
@[simp] theorem loadPass_fin (s : State) : (loadPass s).fin = s.fin := rfl
@[simp] theorem loadPass_m (s : State) : (loadPass s).m = schedule s.buf.read := rfl
@[simp] theorem loadPass_w (s : State) : (loadPass s).w = s.h := rfl
@[simp] theorem loadPass_i (s : State) : (loadPass s).i = 0#6 := rfl
@[simp] theorem loadPass_phase (s : State) : (loadPass s).phase = s.phase := rfl
@[simp] theorem loadPass_cmd (s : State) : (loadPass s).cmd = s.cmd := rfl
@[simp] theorem loadPass_din (s : State) : (loadPass s).din = s.din := rfl
@[simp] theorem loadPass_takes (s : State) : (loadPass s).takes = s.takes := rfl
@[simp] theorem loadPass_dout (s : State) : (loadPass s).dout = s.dout := rfl
@[simp] theorem loadPass_rst (s : State) : (loadPass s).rst = s.rst := rfl
@[simp] theorem loadPass_fresh (s : State) : (loadPass s).fresh = s.fresh := rfl

/-! ### roundStep -/

@[simp] theorem roundStep_h (s : State) : (roundStep s).h = s.h := rfl
@[simp] theorem roundStep_bl (s : State) : (roundStep s).bl = s.bl := rfl
@[simp] theorem roundStep_buf (s : State) : (roundStep s).buf = s.buf := rfl
@[simp] theorem roundStep_fin (s : State) : (roundStep s).fin = s.fin := rfl
@[simp] theorem roundStep_m (s : State) : (roundStep s).m = s.m := rfl
@[simp] theorem roundStep_w (s : State) : (roundStep s).w = roundQuad s.m s.i s.w := rfl
@[simp] theorem roundStep_i (s : State) : (roundStep s).i = nextRound s.i := rfl
@[simp] theorem roundStep_phase (s : State) : (roundStep s).phase = s.phase := rfl
@[simp] theorem roundStep_cmd (s : State) : (roundStep s).cmd = s.cmd := rfl
@[simp] theorem roundStep_din (s : State) : (roundStep s).din = s.din := rfl
@[simp] theorem roundStep_takes (s : State) : (roundStep s).takes = s.takes := rfl
@[simp] theorem roundStep_dout (s : State) : (roundStep s).dout = s.dout := rfl
@[simp] theorem roundStep_rst (s : State) : (roundStep s).rst = s.rst := rfl
@[simp] theorem roundStep_fresh (s : State) : (roundStep s).fresh = s.fresh := rfl

/-! ### chainingAdd -/

@[simp] theorem chainingAdd_h (s : State) : (chainingAdd s).h = s.h.add s.w := rfl
@[simp] theorem chainingAdd_bl (s : State) : (chainingAdd s).bl = s.bl := rfl
@[simp] theorem chainingAdd_buf (s : State) : (chainingAdd s).buf = s.buf := rfl
@[simp] theorem chainingAdd_fin (s : State) : (chainingAdd s).fin = s.fin := rfl
@[simp] theorem chainingAdd_m (s : State) : (chainingAdd s).m = s.m := rfl
@[simp] theorem chainingAdd_w (s : State) : (chainingAdd s).w = s.w := rfl
@[simp] theorem chainingAdd_i (s : State) : (chainingAdd s).i = s.i := rfl
@[simp] theorem chainingAdd_phase (s : State) : (chainingAdd s).phase = s.phase := rfl
@[simp] theorem chainingAdd_cmd (s : State) : (chainingAdd s).cmd = s.cmd := rfl
@[simp] theorem chainingAdd_din (s : State) : (chainingAdd s).din = s.din := rfl
@[simp] theorem chainingAdd_takes (s : State) : (chainingAdd s).takes = s.takes := rfl
@[simp] theorem chainingAdd_dout (s : State) : (chainingAdd s).dout = s.dout := rfl
@[simp] theorem chainingAdd_rst (s : State) : (chainingAdd s).rst = s.rst := rfl
@[simp] theorem chainingAdd_fresh (s : State) : (chainingAdd s).fresh = s.fresh := rfl

/-! ### zeroFill -/

@[simp] theorem zeroFill_h (lo hi : Nat) (s : State) : (zeroFill lo hi s).h = s.h := rfl
@[simp] theorem zeroFill_bl (lo hi : Nat) (s : State) : (zeroFill lo hi s).bl = s.bl := rfl
@[simp] theorem zeroFill_buf (lo hi : Nat) (s : State) : (zeroFill lo hi s).buf = s.buf.fill lo 0x00#8 (hi - lo) := rfl
@[simp] theorem zeroFill_fin (lo hi : Nat) (s : State) : (zeroFill lo hi s).fin = s.fin := rfl
@[simp] theorem zeroFill_m (lo hi : Nat) (s : State) : (zeroFill lo hi s).m = s.m := rfl
@[simp] theorem zeroFill_w (lo hi : Nat) (s : State) : (zeroFill lo hi s).w = s.w := rfl
@[simp] theorem zeroFill_i (lo hi : Nat) (s : State) : (zeroFill lo hi s).i = s.i := rfl
@[simp] theorem zeroFill_phase (lo hi : Nat) (s : State) : (zeroFill lo hi s).phase = s.phase := rfl
@[simp] theorem zeroFill_cmd (lo hi : Nat) (s : State) : (zeroFill lo hi s).cmd = s.cmd := rfl
@[simp] theorem zeroFill_din (lo hi : Nat) (s : State) : (zeroFill lo hi s).din = s.din := rfl
@[simp] theorem zeroFill_takes (lo hi : Nat) (s : State) : (zeroFill lo hi s).takes = s.takes := rfl
@[simp] theorem zeroFill_dout (lo hi : Nat) (s : State) : (zeroFill lo hi s).dout = s.dout := rfl
@[simp] theorem zeroFill_rst (lo hi : Nat) (s : State) : (zeroFill lo hi s).rst = s.rst := rfl
@[simp] theorem zeroFill_fresh (lo hi : Nat) (s : State) : (zeroFill lo hi s).fresh = s.fresh := rfl

/-! ### appendMarker -/

@[simp] theorem appendMarker_h (s : State) : (appendMarker s).h = s.h := rfl
@[simp] theorem appendMarker_bl (s : State) : (appendMarker s).bl = s.bl := rfl
@[simp] theorem appendMarker_buf (s : State) : (appendMarker s).buf = s.buf.write (used s).toNat 0x80#8 := rfl
@[simp] theorem appendMarker_fin (s : State) : (appendMarker s).fin = s.fin := rfl
@[simp] theorem appendMarker_m (s : State) : (appendMarker s).m = s.m := rfl
@[simp] theorem appendMarker_w (s : State) : (appendMarker s).w = s.w := rfl
@[simp] theorem appendMarker_i (s : State) : (appendMarker s).i = s.i := rfl
@[simp] theorem appendMarker_phase (s : State) : (appendMarker s).phase = s.phase := rfl
@[simp] theorem appendMarker_cmd (s : State) : (appendMarker s).cmd = s.cmd := rfl
@[simp] theorem appendMarker_din (s : State) : (appendMarker s).din = s.din := rfl
@[simp] theorem appendMarker_takes (s : State) : (appendMarker s).takes = s.takes := rfl
@[simp] theorem appendMarker_dout (s : State) : (appendMarker s).dout = s.dout := rfl
@[simp] theorem appendMarker_rst (s : State) : (appendMarker s).rst = s.rst := rfl
@[simp] theorem appendMarker_fresh (s : State) : (appendMarker s).fresh = s.fresh := rfl

/-! ### writeLength -/

@[simp] theorem writeLength_h (s : State) : (writeLength s).h = s.h := rfl
@[simp] theorem writeLength_bl (s : State) : (writeLength s).bl = s.bl := rfl
@[simp] theorem writeLength_buf (s : State) : (writeLength s).buf = memWrite s.buf 56 8 s.bl.toNat := rfl
@[simp] theorem writeLength_fin (s : State) : (writeLength s).fin = s.fin := rfl
@[simp] theorem writeLength_m (s : State) : (writeLength s).m = s.m := rfl
@[simp] theorem writeLength_w (s : State) : (writeLength s).w = s.w := rfl
@[simp] theorem writeLength_i (s : State) : (writeLength s).i = s.i := rfl
@[simp] theorem writeLength_phase (s : State) : (writeLength s).phase = s.phase := rfl
@[simp] theorem writeLength_cmd (s : State) : (writeLength s).cmd = s.cmd := rfl
@[simp] theorem writeLength_din (s : State) : (writeLength s).din = s.din := rfl
@[simp] theorem writeLength_takes (s : State) : (writeLength s).takes = s.takes := rfl
@[simp] theorem writeLength_dout (s : State) : (writeLength s).dout = s.dout := rfl
@[simp] theorem writeLength_rst (s : State) : (writeLength s).rst = s.rst := rfl
@[simp] theorem writeLength_fresh (s : State) : (writeLength s).fresh = s.fresh := rfl

/-! ### initialState -/

@[simp] theorem initialState_h (s : State) : (initialState s).h = iv := rfl
@[simp] theorem initialState_bl (s : State) : (initialState s).bl = 0#64 := rfl
@[simp] theorem initialState_buf (s : State) : (initialState s).buf = [] := rfl
@[simp] theorem initialState_fin (s : State) : (initialState s).fin = false := rfl
@[simp] theorem initialState_m (s : State) : (initialState s).m = s.m := rfl
@[simp] theorem initialState_w (s : State) : (initialState s).w = s.w := rfl
@[simp] theorem initialState_i (s : State) : (initialState s).i = s.i := rfl
@[simp] theorem initialState_phase (s : State) : (initialState s).phase = .idle := rfl
@[simp] theorem initialState_cmd (s : State) : (initialState s).cmd = s.cmd := rfl
@[simp] theorem initialState_din (s : State) : (initialState s).din = s.din := rfl
@[simp] theorem initialState_takes (s : State) : (initialState s).takes = s.takes := rfl
@[simp] theorem initialState_dout (s : State) : (initialState s).dout = s.dout := rfl
@[simp] theorem initialState_rst (s : State) : (initialState s).rst = s.rst := rfl
@[simp] theorem initialState_fresh (s : State) : (initialState s).fresh = s.fresh := rfl

/-! ### consumed -/

@[simp] theorem consumed_bl (s : State) : (consumed s).bl = freeCounter (spent s) := rfl
@[simp] theorem consumed_buf (s : State) : (consumed s).buf = freeBuffer (spent s) := by
  rw [consumed]
@[simp] theorem consumed_fin (s : State) : (consumed s).fin = s.fin := rfl
@[simp] theorem consumed_m (s : State) : (consumed s).m = s.m := rfl
@[simp] theorem consumed_w (s : State) : (consumed s).w = s.w := rfl
@[simp] theorem consumed_i (s : State) : (consumed s).i = s.i := rfl
@[simp] theorem consumed_phase (s : State) : (consumed s).phase = s.phase := rfl
@[simp] theorem consumed_cmd (s : State) : (consumed s).cmd = s.cmd := rfl
@[simp] theorem consumed_din (s : State) : (consumed s).din = s.din := rfl
@[simp] theorem consumed_takes (s : State) : (consumed s).takes = s.takes := rfl
@[simp] theorem consumed_dout (s : State) : (consumed s).dout = s.dout := rfl
@[simp] theorem consumed_rst (s : State) : (consumed s).rst = s.rst := rfl
@[simp] theorem consumed_fresh (s : State) : (consumed s).fresh = s.fresh + 1 := rfl

/-! ### resetEvent -/

@[simp] theorem resetEvent_h (s : State) : (resetEvent s).h = iv := rfl
@[simp] theorem resetEvent_bl (s : State) : (resetEvent s).bl = 0#64 := rfl
@[simp] theorem resetEvent_buf (s : State) : (resetEvent s).buf = [] := rfl
@[simp] theorem resetEvent_fin (s : State) : (resetEvent s).fin = false := rfl
@[simp] theorem resetEvent_m (s : State) : (resetEvent s).m = State.reset.m := rfl
@[simp] theorem resetEvent_w (s : State) : (resetEvent s).w = State.reset.w := rfl
@[simp] theorem resetEvent_i (s : State) : (resetEvent s).i = State.reset.i := rfl
@[simp] theorem resetEvent_phase (s : State) : (resetEvent s).phase = .idle := rfl
@[simp] theorem resetEvent_cmd (s : State) : (resetEvent s).cmd = s.cmd := rfl
@[simp] theorem resetEvent_din (s : State) : (resetEvent s).din = s.din := rfl
@[simp] theorem resetEvent_takes (s : State) : (resetEvent s).takes = s.takes := rfl
@[simp] theorem resetEvent_dout (s : State) : (resetEvent s).dout = s.dout := rfl
@[simp] theorem resetEvent_rst (s : State) : (resetEvent s).rst = false := rfl
@[simp] theorem resetEvent_fresh (s : State) : (resetEvent s).fresh = s.fresh := rfl

/-! ### The derived offset depends on the counter only -/

@[simp] theorem used_setBuf (s : State) (p : Nat) (v : Byte) : used (setBuf s p v) = used s := rfl
@[simp] theorem used_enter (p : Phase) (s : State) : used (enter p s) = used s := rfl
@[simp] theorem used_zeroFill (lo hi : Nat) (s : State) : used (zeroFill lo hi s) = used s := rfl
@[simp] theorem used_appendMarker (s : State) : used (appendMarker s) = used s := rfl
@[simp] theorem used_writeLength (s : State) : used (writeLength s) = used s := rfl

/-- Writing a phase twice leaves the second. -/
@[simp] theorem enter_enter (p q : Phase) (s : State) : enter p (enter q s) = enter p s := rfl

/-- Writing the phase a state is in changes nothing. -/
theorem enter_self (s : State) : enter s.phase s = s := rfl

end Sys2Proof.Machine
end

