-- ==== Sys2Proof/Laws/Compress.lean ====
section
/-! SUPPORT. What a pass does and what it leaves alone (spec/43_compress.md R170, R177, R178). -/

namespace Sys2Proof.Machine

/-- The rounds move the working registers and the index only. -/
theorem runRounds_frame (n : Nat) (s : State) :
    runRounds n s = { s with w := (runRounds n s).w, i := (runRounds n s).i } := by
  induction n generalizing s with
  | zero => rfl
  | succ n ih => rw [runRounds, ih]; rfl

theorem nextRound_toNat {i : RoundIndex} (h : i.toNat < 63) : (nextRound i).toNat = i.toNat + 1 := by
  have hne : i ≠ 63#6 := fun he => by simp [he] at h
  simp only [nextRound, if_neg hne, BitVec.toNat_add, BitVec.toNat_ofNat]
  omega

/-- The rounds from `i` to the last one are the rounds numbered so, in that order. -/
theorem runRounds_w {n : Nat} {s : State} (h : s.i.toNat + n = 64) :
    (runRounds n s).w =
      (List.range' s.i.toNat n).foldl (fun q i => roundQuad s.m (BitVec.ofNat 6 i) q) s.w := by
  induction n generalizing s with
  | zero => rfl
  | succ n ih =>
    rw [runRounds, List.range'_succ, List.foldl_cons, BitVec.ofNat_toNat, BitVec.setWidth_eq]
    cases n with
    | zero => rfl
    | succ k =>
      have hi := nextRound_toNat (i := s.i) (by omega)
      rw [ih (by simp only [roundStep_i]; omega)]
      simp only [roundStep_i, roundStep_m, roundStep_w, hi]

/-- A pass leaves the index at 63 (log 4). -/
theorem runRounds_i {n : Nat} {s : State} (h : s.i.toNat + (n + 1) = 64) :
    (runRounds (n + 1) s).i = 63#6 := by
  induction n generalizing s with
  | zero =>
    have hi : s.i = 63#6 := by apply BitVec.eq_of_toNat_eq; simp; omega
    simp [runRounds, nextRound, hi]
  | succ n ih =>
    have hi := nextRound_toNat (i := s.i) (by omega)
    rw [runRounds, ih (by simp only [roundStep_i]; omega)]

/-- COMPRESS_BLOCK in closed form: `H` becomes `CF(H, BUF)`, the scratch state takes the last values of
the pass, and nothing else moves (R170, R177, R178). -/
theorem compressBlock_eq (s : State) :
    compressBlock s =
      { s with
        h := compressionFunction s.h s.buf.read
        m := schedule s.buf.read
        w := allRounds (schedule s.buf.read) s.h
        i := 63#6 } := by
  have hw := runRounds_w (n := 64) (s := loadPass s) rfl
  have hi := runRounds_i (n := 63) (s := loadPass s) rfl
  rw [compressBlock, show Config.rounds = 64 from rfl, runRounds_frame 64 (loadPass s), hw, hi]
  simp only [chainingAdd, compressionFunction, allRounds, List.range_eq_range', loadPass, Config.rounds,
    BitVec.toNat_zero]

@[simp] theorem compressBlock_h (s : State) :
    (compressBlock s).h = compressionFunction s.h s.buf.read := by rw [compressBlock_eq]
@[simp] theorem compressBlock_bl (s : State) : (compressBlock s).bl = s.bl := by rw [compressBlock_eq]
@[simp] theorem compressBlock_buf (s : State) : (compressBlock s).buf = s.buf := by
  rw [compressBlock_eq]
@[simp] theorem compressBlock_fin (s : State) : (compressBlock s).fin = s.fin := by
  rw [compressBlock_eq]
@[simp] theorem compressBlock_m (s : State) : (compressBlock s).m = schedule s.buf.read := by
  rw [compressBlock_eq]
@[simp] theorem compressBlock_phase (s : State) : (compressBlock s).phase = s.phase := by
  rw [compressBlock_eq]
@[simp] theorem compressBlock_cmd (s : State) : (compressBlock s).cmd = s.cmd := by
  rw [compressBlock_eq]
@[simp] theorem compressBlock_din (s : State) : (compressBlock s).din = s.din := by
  rw [compressBlock_eq]
@[simp] theorem compressBlock_takes (s : State) : (compressBlock s).takes = s.takes := by
  rw [compressBlock_eq]
@[simp] theorem compressBlock_dout (s : State) : (compressBlock s).dout = s.dout := by
  rw [compressBlock_eq]
@[simp] theorem compressBlock_rst (s : State) : (compressBlock s).rst = s.rst := by
  rw [compressBlock_eq]
@[simp] theorem compressBlock_fresh (s : State) : (compressBlock s).fresh = s.fresh := by
  rw [compressBlock_eq]
@[simp] theorem used_compressBlock (s : State) : used (compressBlock s) = used s :=
  congrArg usedOf (compressBlock_bl s)

/-! ### What a pass depends on -/

theorem schedule_get (byte : Nat → Byte) (j : Fin 16) :
    (schedule byte)[j] = scheduleWord byte j.val := by
  fin_cases j <;> rfl

/-- The schedule reads the 64 bytes of the block and no others (R171). -/
theorem schedule_congr {f g : Nat → Byte} (h : ∀ p, p < 64 → f p = g p) : schedule f = schedule g := by
  apply Vector.ext
  intro j hj
  have key : scheduleWord f j = scheduleWord g j := by
    simp only [scheduleWord, leValue]
    rw [h _ (by omega), h _ (by omega), h _ (by omega), h _ (by omega)]
  exact (schedule_get f ⟨j, hj⟩).trans (key.trans (schedule_get g ⟨j, hj⟩).symm)

/-- So does the compression function (R177). -/
theorem compressionFunction_congr (q : Quad) {f g : Nat → Byte} (h : ∀ p, p < 64 → f p = g p) :
    compressionFunction q f = compressionFunction q g := by
  rw [compressionFunction, compressionFunction, schedule_congr h]

end Sys2Proof.Machine
end

