-- ==== Sys2Proof/Laws/Decode.lean ====
section
/-! SUPPORT. The fields of a command word as numbers (spec/30_encoding.md R81, R82). -/

namespace Sys2Proof

/-- `word = OP * 2^28 + ARG` (R81). -/
theorem word_fields (w : Word) : w.toNat = (opField w).toNat * 268435456 + (argField w).toNat := by
  rw [opField, argField, BitVec.extractLsb'_toNat, BitVec.extractLsb'_toNat,
    Nat.shiftRight_eq_div_pow, Nat.shiftRight_eq_div_pow]
  have := w.isLt
  norm_num at this ⊢
  omega

/-- `ARG = ARG[27:8] * 2^8 + ARG[7:0]` (R82). -/
theorem arg_fields (w : Word) : (argField w).toNat = (argHigh w).toNat * 256 + (argByte w).toNat := by
  rw [argHigh, argByte, argField, BitVec.extractLsb'_toNat, BitVec.extractLsb'_toNat,
    BitVec.extractLsb'_toNat, Nat.shiftRight_eq_div_pow, Nat.shiftRight_eq_div_pow]
  norm_num
  omega

end Sys2Proof
end

