-- ==== Sys2Proof/Laws/Memory.lean ====
section
/-! SUPPORT. The laws of the byte-addressed storage: a read after a write, and the canonical form, which
every operation keeps. -/

namespace Sys2Proof.Machine

/-! ### Reading -/

@[simp] theorem Memory.read_nil (p : Nat) : Memory.read [] p = 0x00#8 := rfl

/-- A canonical storage from `lo` on lists nothing below `lo`. -/
theorem Memory.read_below {lo : Nat} {m : Memory} (h : Memory.wfFrom lo m = true) {p : Nat}
    (hp : p < lo) : Memory.read m p = Memory.blank := by
  induction m generalizing lo with
  | nil => rfl
  | cons c rest ih =>
    obtain ⟨k, v⟩ := c
    simp only [Memory.wfFrom, Bool.and_eq_true, decide_eq_true_eq] at h
    have hne : p ≠ k := by omega
    simp only [Memory.read, if_neg hne]
    exact ih h.2 (by omega)

theorem Memory.wfFrom_mono {lo lo' : Nat} {m : Memory} (h : Memory.wfFrom lo m = true)
    (hle : lo' ≤ lo) : Memory.wfFrom lo' m = true := by
  cases m with
  | nil => rfl
  | cons c rest =>
    obtain ⟨k, v⟩ := c
    simp only [Memory.wfFrom, Bool.and_eq_true, decide_eq_true_eq] at h ⊢
    exact ⟨⟨⟨by omega, h.1.1.2⟩, h.1.2⟩, h.2⟩

theorem Memory.read_cons_self {p : Nat} {v : Byte} {rest : Memory}
    (h : Memory.wfFrom (p + 1) rest = true) : Memory.read (Memory.cons p v rest) p = v := by
  unfold Memory.cons
  split
  · subst v; exact Memory.read_below h (by omega)
  · simp [Memory.read]

theorem Memory.read_cons_ne {p q : Nat} {v : Byte} {rest : Memory} (hq : q ≠ p) :
    Memory.read (Memory.cons p v rest) q = Memory.read rest q := by
  unfold Memory.cons
  split
  · rfl
  · simp [Memory.read, hq]

/-- A read after a write to the same offset gives the value written. -/
theorem Memory.read_write_same {m : Memory} {lo : Nat} (h : Memory.wfFrom lo m = true) (p : Nat)
    (v : Byte) : Memory.read (m.write p v) p = v := by
  induction m generalizing lo with
  | nil => exact Memory.read_cons_self rfl
  | cons c rest ih =>
    obtain ⟨k, x⟩ := c
    simp only [Memory.wfFrom, Bool.and_eq_true, decide_eq_true_eq] at h
    simp only [Memory.write]
    split
    · refine Memory.read_cons_self ?_
      simp only [Memory.wfFrom, Bool.and_eq_true, decide_eq_true_eq]
      exact ⟨⟨⟨by omega, h.1.1.2⟩, h.1.2⟩, h.2⟩
    · split
      · rename_i _ hpk; subst hpk; exact Memory.read_cons_self h.2
      · rename_i _ hpk; simp only [Memory.read, if_neg hpk]; exact ih h.2

/-- A write leaves every other offset alone. -/
theorem Memory.read_write_ne (m : Memory) {p q : Nat} (v : Byte) (hq : q ≠ p) :
    Memory.read (m.write p v) q = Memory.read m q := by
  induction m with
  | nil => exact Memory.read_cons_ne hq
  | cons c rest ih =>
    obtain ⟨k, x⟩ := c
    simp only [Memory.write]
    split
    · exact Memory.read_cons_ne hq
    · split
      · rename_i _ hpk
        subst hpk
        simp [Memory.read_cons_ne hq, Memory.read, hq]
      · simp only [Memory.read, ih]

/-! ### The canonical form -/

theorem Memory.wfFrom_cons {lo p : Nat} {v : Byte} {rest : Memory} (hlo : lo ≤ p)
    (hp : p < Memory.size) (h : Memory.wfFrom (p + 1) rest = true) :
    Memory.wfFrom lo (Memory.cons p v rest) = true := by
  unfold Memory.cons
  split
  · exact Memory.wfFrom_mono h (by omega)
  · rename_i hv
    simp only [Memory.wfFrom, Bool.and_eq_true, decide_eq_true_eq]
    exact ⟨⟨⟨hlo, hp⟩, hv⟩, h⟩

theorem Memory.wfFrom_write {lo : Nat} {m : Memory} (h : Memory.wfFrom lo m = true) {p : Nat}
    (hlo : lo ≤ p) (hp : p < Memory.size) (v : Byte) : Memory.wfFrom lo (m.write p v) = true := by
  induction m generalizing lo with
  | nil => exact Memory.wfFrom_cons hlo hp rfl
  | cons c rest ih =>
    obtain ⟨k, x⟩ := c
    simp only [Memory.wfFrom, Bool.and_eq_true, decide_eq_true_eq] at h
    simp only [Memory.write]
    split
    · refine Memory.wfFrom_cons hlo hp ?_
      simp only [Memory.wfFrom, Bool.and_eq_true, decide_eq_true_eq]
      exact ⟨⟨⟨by omega, h.1.1.2⟩, h.1.2⟩, h.2⟩
    · split
      · rename_i _ hpk; subst hpk; exact Memory.wfFrom_cons hlo hp h.2
      · simp only [Memory.wfFrom, Bool.and_eq_true, decide_eq_true_eq]
        exact ⟨h.1, ih h.2 (by omega)⟩

/-- A write at an existing offset keeps the canonical form. -/
theorem Memory.wf_write {m : Memory} (h : m.wf = true) {p : Nat} (hp : p < 64) (v : Byte) :
    (m.write p v).wf = true :=
  Memory.wfFrom_write h (Nat.zero_le p) hp v

theorem Memory.wf_fill {m : Memory} (h : m.wf = true) (p : Nat) (v : Byte) (n : Nat)
    (hp : n = 0 ∨ p + n ≤ 64) : (m.fill p v n).wf = true := by
  induction n generalizing m p with
  | zero => exact h
  | succ n ih => exact ih (Memory.wf_write h (by omega) v) (p + 1) (by omega)

theorem Memory.wf_writeAll {m : Memory} (h : m.wf = true) (p : Nat) (bs : List Byte)
    (hp : bs = [] ∨ p + bs.length ≤ 64) : (m.writeAll p bs).wf = true := by
  induction bs generalizing m p with
  | nil => exact h
  | cons b rest ih =>
    have hlen : p + (rest.length + 1) ≤ 64 := by simpa using hp
    refine ih (Memory.wf_write h (by omega) b) (p + 1) ?_
    exact .inr (by omega)

theorem leBytes_length (n v : Nat) : (leBytes n v).length = n := by
  induction n generalizing v with
  | zero => rfl
  | succ n ih => simp [leBytes, ih]

theorem Memory.wf_memWrite {m : Memory} (h : m.wf = true) (p n v : Nat) (hp : p + n ≤ 64) :
    (memWrite m p n v).wf = true :=
  Memory.wf_writeAll h p _ (.inr (by rw [leBytes_length]; exact hp))

theorem wf_freeBuffer (d : Config.Spent) : (freeBuffer d).wf = true := by
  have key : ∀ (l : List Nat) (m : Memory), m.wf = true → (∀ p ∈ l, p < 64) →
      (l.foldl (fun m p => m.write p (Config.freeByte d p)) m).wf = true := by
    intro l
    induction l with
    | nil => intro m hm _; exact hm
    | cons p rest ih =>
      intro m hm hl
      exact ih _ (Memory.wf_write hm (hl p (by simp)) _) (fun q hq => hl q (by simp [hq]))
  unfold freeBuffer
  exact key _ [] rfl (fun p hp => by simpa [Memory.size, Config.blockBytes] using hp)

/-! ### Filling and writing several bytes -/

theorem Memory.read_fill {m : Memory} (h : m.wf = true) (p : Nat) (v : Byte) (n : Nat)
    (hp : n = 0 ∨ p + n ≤ 64) (q : Nat) :
    Memory.read (m.fill p v n) q = if p ≤ q ∧ q < p + n then v else Memory.read m q := by
  induction n generalizing m p with
  | zero => rw [if_neg (by omega)]; rfl
  | succ n ih =>
    rw [Memory.fill, ih (Memory.wf_write h (by omega) v) (p + 1) (by omega)]
    by_cases hq : q = p
    · subst hq
      rw [if_neg (by omega), if_pos (by omega), Memory.read_write_same h]
    · rw [Memory.read_write_ne m v hq]
      exact if_congr (by omega) rfl rfl

theorem Memory.read_writeAll {m : Memory} (h : m.wf = true) (p : Nat) (bs : List Byte)
    (hp : bs = [] ∨ p + bs.length ≤ 64) (q : Nat) :
    Memory.read (m.writeAll p bs) q =
      if p ≤ q ∧ q < p + bs.length then bs.getD (q - p) 0x00#8 else Memory.read m q := by
  induction bs generalizing m p with
  | nil => rw [if_neg (by simp)]; rfl
  | cons b rest ih =>
    have hlen : p + (rest.length + 1) ≤ 64 := by simpa using hp
    rw [Memory.writeAll, ih (Memory.wf_write h (by omega) b) (p + 1) (.inr (by omega))]
    by_cases hq : q = p
    · subst hq
      rw [if_neg (by omega), if_pos (by simp), Memory.read_write_same h]
      simp
    · rw [Memory.read_write_ne m b hq]
      by_cases hin : p + 1 ≤ q ∧ q < p + 1 + rest.length
      · rw [if_pos hin, if_pos (by simp; omega)]
        obtain ⟨d, rfl⟩ : ∃ d, q = p + 1 + d := ⟨q - (p + 1), by omega⟩
        rw [show p + 1 + d - (p + 1) = d by omega, show p + 1 + d - p = d + 1 by omega]
        simp
      · rw [if_neg hin, if_neg (by simp; omega)]

/-- Equal canonical storages: the list is determined by what it reads as. -/
theorem Memory.ext_read {lo : Nat} {m n : Memory} (hm : Memory.wfFrom lo m = true)
    (hn : Memory.wfFrom lo n = true) (h : ∀ p, Memory.read m p = Memory.read n p) : m = n := by
  induction m generalizing lo n with
  | nil =>
    cases n with
    | nil => rfl
    | cons c rest =>
      obtain ⟨k, v⟩ := c
      simp only [Memory.wfFrom, Bool.and_eq_true, decide_eq_true_eq] at hn
      exact absurd (by simpa [Memory.read] using (h k).symm) hn.1.2
  | cons c rest ih =>
    obtain ⟨k, v⟩ := c
    simp only [Memory.wfFrom, Bool.and_eq_true, decide_eq_true_eq] at hm
    cases n with
    | nil => exact absurd (by simpa [Memory.read] using h k) hm.1.2
    | cons c' rest' =>
      obtain ⟨k', v'⟩ := c'
      simp only [Memory.wfFrom, Bool.and_eq_true, decide_eq_true_eq] at hn
      have hk : k = k' := by
        rcases lt_trichotomy k k' with hlt | heq | hgt
        · have hb := h k
          rw [Memory.read, if_pos rfl, Memory.read, if_neg (by omega),
            Memory.read_below hn.2 (by omega)] at hb
          exact absurd hb hm.1.2
        · exact heq
        · have hb := h k'
          rw [Memory.read, if_neg (by omega), Memory.read_below hm.2 (by omega), Memory.read,
            if_pos rfl] at hb
          exact absurd hb.symm hn.1.2
      subst hk
      have hv : v = v' := by simpa [Memory.read] using h k
      subst hv
      refine congrArg _ (ih hm.2 hn.2 fun p => ?_)
      by_cases hp : p = k
      · subst hp
        rw [Memory.read_below hm.2 (by omega), Memory.read_below hn.2 (by omega)]
      · simpa [Memory.read, hp] using h p

/-- Equal canonical storages, from the first offset on. -/
theorem Memory.ext_wf {m n : Memory} (hm : m.wf = true) (hn : n.wf = true)
    (h : ∀ p, Memory.read m p = Memory.read n p) : m = n :=
  Memory.ext_read hm hn h

/-- A canonical storage reads as blank outside its 64 offsets. -/
theorem Memory.read_outside {m : Memory} (h : m.wf = true) {p : Nat} (hp : 64 ≤ p) :
    Memory.read m p = 0x00#8 := by
  have key : ∀ (m : Memory) (lo : Nat), Memory.wfFrom lo m = true → Memory.read m p = 0x00#8 := by
    intro m
    induction m with
    | nil => intro lo _; rfl
    | cons c rest ih =>
      intro lo hw
      obtain ⟨k, v⟩ := c
      simp only [Memory.wfFrom, Bool.and_eq_true, decide_eq_true_eq] at hw
      have hk : k < 64 := hw.1.1.2
      rw [Memory.read, if_neg (by omega)]
      exact ih _ hw.2
  exact key m 0 h

end Sys2Proof.Machine
end

