-- ==== Sys2Proof/Laws/Operands.lean ====
section
/-! SUPPORT. The laws of the counter, of the offset derived from it, and of the working state. -/

namespace Sys2Proof.Machine

/-- The offset after the counter step is the old one plus the length, modulo 64. -/
theorem usedOf_advance (bl : Counter) (len : Nat) :
    usedOf (advance bl len) = usedOf bl + BitVec.ofNat 6 len := by
  apply BitVec.eq_of_toNat_eq
  simp only [usedOf, advance, BitVec.extractLsb'_toNat, BitVec.toNat_add, BitVec.toNat_ofNat,
    Nat.shiftRight_eq_div_pow]
  omega

/-- Two counter steps are one (the counter wraps, R25). -/
theorem advance_advance (bl : Counter) (a b : Nat) :
    advance (advance bl a) b = advance bl (a + b) := by
  apply BitVec.eq_of_toNat_eq
  simp only [advance, BitVec.toNat_add, BitVec.toNat_ofNat]
  omega

@[simp] theorem advance_zero (bl : Counter) : advance bl 0 = bl := by simp [advance]

/-- A counter step adds a multiple of 8, so it keeps `BL[2:0]` (R24). -/
theorem advance_lowBits (bl : Counter) (len : Nat) :
    (advance bl len).extractLsb' 0 3 = bl.extractLsb' 0 3 := by
  apply BitVec.eq_of_toNat_eq
  simp only [advance, BitVec.extractLsb'_toNat, BitVec.toNat_add, BitVec.toNat_ofNat,
    Nat.shiftRight_zero]
  omega

theorem freeCounter_lowBits (d : Config.Spent) : (freeCounter d).extractLsb' 0 3 = 0#3 := by
  apply BitVec.eq_of_toNat_eq
  simp only [freeCounter, BitVec.extractLsb'_toNat, BitVec.toNat_append, Nat.shiftRight_zero,
    BitVec.toNat_ofNat, Nat.zero_mod, Nat.or_zero, Nat.shiftLeft_eq]
  omega

@[simp] theorem used_advanceCounter (s : State) (len : Nat) :
    used (advanceCounter s len) = used s + BitVec.ofNat 6 len := usedOf_advance s.bl len

theorem workingState_open {s : State} (h : s.fin = false) : workingState s = s := by
  simp [workingState, h]

theorem workingState_finalized {s : State} (h : s.fin = true) : workingState s = consumed s := by
  simp [workingState, h]

/-- The working state differs from the state in `H`, `BL`, `BUF` and the counter of free values only. -/
theorem workingState_eq (s : State) :
    workingState s =
      { s with
        h := (workingState s).h
        bl := (workingState s).bl
        buf := (workingState s).buf
        fresh := (workingState s).fresh } := by
  unfold workingState
  split <;> rfl

theorem workingState_withDin (s : State) (d : List Byte) :
    workingState { s with din := d } = { workingState s with din := d } := by
  unfold workingState
  split <;> rfl

theorem workingState_withTakes (s : State) (n : Nat) :
    workingState { s with takes := n } = { workingState s with takes := n } := by
  unfold workingState
  split <;> rfl

end Sys2Proof.Machine
end

