-- ==== Sys2Proof/Laws/Finalize.lean ====
section
/-! SUPPORT. What the padding and the sending of the digest can do (spec/42_finalize.md R143 to R154). -/

namespace Sys2Proof.Machine

/-! ### Padding -/

theorem padFresh_buf (s : State) :
    (padFresh s).buf = memWrite (s.buf.fill 0 0x00#8 64) 56 8 s.bl.toNat := by
  rw [padFresh, writeLength_buf, zeroFill_buf, zeroFill_bl]

theorem padMarker_buf (s : State) :
    (padMarker s).buf =
      if needsSecondBlock (used s) then
        (s.buf.write (used s).toNat 0x80#8).fill ((used s).toNat + 1) 0x00#8 (63 - (used s).toNat)
      else
        memWrite ((s.buf.write (used s).toNat 0x80#8).fill ((used s).toNat + 1) 0x00#8
          (55 - (used s).toNat)) 56 8 s.bl.toNat := by
  unfold padMarker
  split
  · rw [zeroFill_buf, appendMarker_buf, show 64 - ((used s).toNat + 1) = 63 - (used s).toNat by omega]
  · rw [writeLength_buf, zeroFill_buf, zeroFill_bl, appendMarker_buf, appendMarker_bl,
      show 56 - ((used s).toNat + 1) = 55 - (used s).toNat by omega]

/-- Padding the fresh block writes the buffer only. -/
theorem padFresh_eq (s : State) : padFresh s = { s with buf := (padFresh s).buf } := by
  rw [padFresh, writeLength, zeroFill]

/-- Padding the marker block writes the buffer only. -/
theorem padMarker_eq (s : State) : padMarker s = { s with buf := (padMarker s).buf } := by
  unfold padMarker
  split
  · rw [zeroFill, appendMarker, setBuf]
  · rw [writeLength, zeroFill, appendMarker, setBuf]

@[simp] theorem padFresh_h (s : State) : (padFresh s).h = s.h := by rw [padFresh_eq]
@[simp] theorem padFresh_bl (s : State) : (padFresh s).bl = s.bl := by rw [padFresh_eq]
@[simp] theorem padMarker_h (s : State) : (padMarker s).h = s.h := by rw [padMarker_eq]
@[simp] theorem padMarker_bl (s : State) : (padMarker s).bl = s.bl := by rw [padMarker_eq]
@[simp] theorem used_padMarker (s : State) : used (padMarker s) = used s :=
  congrArg usedOf (padMarker_bl s)

/-- Padding and its passes write the buffer, `H` and the scratch state only. -/
theorem finalPasses_eq (s : State) :
    finalPasses s =
      { s with
        h := (finalPasses s).h
        buf := (finalPasses s).buf
        m := (finalPasses s).m
        w := (finalPasses s).w
        i := (finalPasses s).i } := by
  unfold finalPasses
  split
  · rw [compressBlock_eq, padFresh_eq, compressBlock_eq, padMarker_eq]
  · rw [compressBlock_eq, padMarker_eq]

@[simp] theorem finalPasses_bl (s : State) : (finalPasses s).bl = s.bl := by rw [finalPasses_eq]
@[simp] theorem finalPasses_fin (s : State) : (finalPasses s).fin = s.fin := by rw [finalPasses_eq]
@[simp] theorem finalPasses_phase (s : State) : (finalPasses s).phase = s.phase := by
  rw [finalPasses_eq]
@[simp] theorem finalPasses_cmd (s : State) : (finalPasses s).cmd = s.cmd := by rw [finalPasses_eq]
@[simp] theorem finalPasses_din (s : State) : (finalPasses s).din = s.din := by rw [finalPasses_eq]
@[simp] theorem finalPasses_takes (s : State) : (finalPasses s).takes = s.takes := by
  rw [finalPasses_eq]
@[simp] theorem finalPasses_dout (s : State) : (finalPasses s).dout = s.dout := by
  rw [finalPasses_eq]
@[simp] theorem finalPasses_rst (s : State) : (finalPasses s).rst = s.rst := by rw [finalPasses_eq]
@[simp] theorem finalPasses_fresh (s : State) : (finalPasses s).fresh = s.fresh := by
  rw [finalPasses_eq]

theorem padMarker_wf {s : State} (h : s.buf.wf = true) : (padMarker s).buf.wf = true := by
  have hu : (used s).toNat < 64 := (used s).isLt
  have hm := Memory.wf_write h hu 0x80#8
  rw [padMarker_buf]
  split
  · exact Memory.wf_fill hm _ _ _ (by omega)
  · rename_i hn
    have hn' : ¬ 63 - (used s).toNat < 8 := by simpa [needsSecondBlock] using hn
    exact Memory.wf_memWrite (Memory.wf_fill hm _ _ _ (by omega)) _ _ _ (by omega)

theorem padFresh_wf {s : State} (h : s.buf.wf = true) : (padFresh s).buf.wf = true := by
  rw [padFresh_buf]
  exact Memory.wf_memWrite (Memory.wf_fill h _ _ _ (by omega)) _ _ _ (by omega)

/-- Padding keeps the canonical form of the buffer. -/
theorem finalPasses_wf {s : State} (h : s.buf.wf = true) : (finalPasses s).buf.wf = true := by
  unfold finalPasses
  split
  · rw [compressBlock_buf]
    refine padFresh_wf ?_
    rw [compressBlock_buf]
    exact padMarker_wf h
  · rw [compressBlock_buf]
    exact padMarker_wf h

/-! ### Sending -/

/-- With enough takes all the words go out, `FIN` is set and the block is idle (R150, R154). -/
theorem emit_done {ks : List (Fin 4)} {s : State} (h : ks.length ≤ s.takes) :
    emit ks s =
      { s with
        dout := s.dout ++ ks.map (digestWord s.h)
        takes := s.takes - ks.length
        fin := true
        phase := .idle } := by
  induction ks generalizing s with
  | nil => simp [emit, enter, setFin]
  | cons k rest ih =>
    have hlen : rest.length + 1 ≤ s.takes := h
    rw [emit, if_neg (by omega), ih (by rw [doutPush_takes]; omega)]
    simp [doutPush, Nat.sub_sub, Nat.add_comm]

/-- Without enough takes the words that fit go out and the next one stays on offer (R75). -/
theorem emit_wait {ks : List (Fin 4)} {s : State} {k : Fin 4} {rest : List (Fin 4)}
    (h : ks.drop s.takes = k :: rest) :
    emit ks s =
      { s with
        dout := s.dout ++ (ks.take s.takes).map (digestWord s.h)
        takes := 0
        phase := .emit k } := by
  induction ks generalizing s with
  | nil => simp at h
  | cons j js ih =>
    by_cases ht : s.takes = 0
    · obtain ⟨rfl, rfl⟩ : j = k ∧ js = rest := by simpa [ht] using h
      rw [emit, if_pos ht, ht]
      simp [enter, ← ht]
    · obtain ⟨t, ht'⟩ := Nat.exists_eq_succ_of_ne_zero ht
      rw [emit, if_neg ht, ih (by simpa [ht'] using h)]
      simp [doutPush, ht']

/-- Sending touches the DOUT port, the phase and `FIN` only. -/
theorem emit_frame (ks : List (Fin 4)) (s : State) :
    (emit ks s).h = s.h ∧ (emit ks s).bl = s.bl ∧ (emit ks s).buf = s.buf ∧ (emit ks s).m = s.m ∧
    (emit ks s).w = s.w ∧ (emit ks s).i = s.i ∧ (emit ks s).cmd = s.cmd ∧
    (emit ks s).din = s.din ∧ (emit ks s).rst = s.rst ∧ (emit ks s).fresh = s.fresh := by
  induction ks generalizing s with
  | nil => exact ⟨rfl, rfl, rfl, rfl, rfl, rfl, rfl, rfl, rfl, rfl⟩
  | cons k rest ih =>
    rw [emit]
    split
    · exact ⟨rfl, rfl, rfl, rfl, rfl, rfl, rfl, rfl, rfl, rfl⟩
    · simpa using ih (doutPush s (digestWord s.h k))

/-! ### What padding leaves in the buffer -/

theorem leBytes_getD (n v t : Nat) (h : t < n) :
    (leBytes n v).getD t 0x00#8 = BitVec.ofNat 8 (v / 256 ^ t) := by
  induction n generalizing v t with
  | zero => omega
  | succ n ih =>
    cases t with
    | zero => simp [leBytes]
    | succ t =>
      rw [leBytes, List.getD_cons_succ, ih _ _ (by omega), Nat.div_div_eq_div_mul, Nat.pow_succ,
        Nat.mul_comm]

theorem counterByte_eq (bl : Counter) (t : Nat) :
    BitVec.ofNat 8 (bl.toNat / 256 ^ t) = bl.extractLsb' (8 * t) 8 := by
  apply BitVec.eq_of_toNat_eq
  rw [BitVec.toNat_ofNat, BitVec.extractLsb'_toNat, Nat.shiftRight_eq_div_pow, Nat.pow_mul]

/-- The length field, read byte by byte. -/
theorem Memory.read_lengthField {m : Memory} (h : m.wf = true) (bl : Counter) (q : Nat) :
    (memWrite m 56 8 bl.toNat).read q =
      if 56 ≤ q ∧ q < 64 then bl.extractLsb' (8 * (q - 56)) 8 else m.read q := by
  rw [memWrite, Memory.read_writeAll h _ _ (.inr (by rw [leBytes_length])), leBytes_length]
  split
  · rw [leBytes_getD _ _ _ (by omega), counterByte_eq]
  · rfl

theorem needsSecondBlock_iff (u : Offset) : needsSecondBlock u = true ↔ 56 ≤ u.toNat := by
  have := u.isLt
  simp only [needsSecondBlock, decide_eq_true_eq]
  omega

/-- What goes out: as many words as the host takes (R75, R150). -/
theorem emit_dout (ks : List (Fin 4)) (s : State) :
    (emit ks s).dout = s.dout ++ (ks.take s.takes).map (digestWord s.h) := by
  by_cases h : ks.length ≤ s.takes
  · rw [emit_done h, List.take_of_length_le h]
  · cases hd : ks.drop s.takes with
    | nil => have := List.drop_eq_nil_iff.1 hd; omega
    | cons k rest => rw [emit_wait hd]

end Sys2Proof.Machine
end

