-- ==== Sys2Proof/Laws/Message.lean ====
section
/-! SUPPORT. The laws of the chaining over a byte sequence and of the whole-block step (spec/10_state.md R22;
spec/41_update.md R122). -/

namespace Sys2Proof.Machine

/-- A sequence without a complete block leaves the chaining value. -/
theorem chain_short (h : Quad) (msg : List Byte) (hl : msg.length < 64) : chain h msg = h := by
  rw [chain, show msg.length / 64 = 0 by omega]
  rfl

/-- The first block of a sequence is compressed first. -/
theorem chain_block (h : Quad) (x y : List Byte) (hx : x.length = 64) :
    chain h (x ++ y) = chain (compressionFunction h (blockAt x 0)) y := by
  rw [chain, chain, List.length_append, hx, show (64 + y.length) / 64 = y.length / 64 + 1 by omega,
    List.range_succ_eq_map, List.foldl_cons, List.foldl_map]
  have h1 : compressionFunction h (blockAt (x ++ y) 0) = compressionFunction h (blockAt x 0) := by
    apply compressionFunction_congr
    intro p hp
    simp only [blockAt]
    rw [List.getD_append _ _ _ _ (by omega)]
  have h2 : (fun h q => compressionFunction h (blockAt (x ++ y) (q + 1))) =
      fun h q => compressionFunction h (blockAt y q) := by
    funext h q
    apply congrArg
    funext p
    simp only [blockAt]
    rw [List.getD_append_right _ _ _ _ (by omega)]
    exact congrArg (fun n => y.getD n 0x00#8) (by omega)
  rw [h1]
  exact congrArg (fun f => List.foldl f _ _) h2

/-- The whole-block step takes the blocks one after another. -/
theorem wholeBlocks_succ (n : Nat) (data : List Byte) (s : State) :
    wholeBlocks (n + 1) data s =
      wholeBlocks n (data.drop 64) (compressBlock (copyBytes 0 (data.take 64) s)) := by
  have he : (fun (s : State) (q : Nat) => wholeBlock data s (q + 1)) = wholeBlock (data.drop 64) := by
    funext s q
    rw [wholeBlock, wholeBlock, List.drop_drop, show 64 * (q + 1) = 64 + 64 * q by omega]
  have h0 : wholeBlock data s 0 = compressBlock (copyBytes 0 (data.take 64) s) := by
    rw [wholeBlock, Nat.mul_zero, List.drop_zero]
  rw [wholeBlocks, wholeBlocks, List.range_succ_eq_map, List.foldl_cons, List.foldl_map, h0]
  exact congrArg (fun f => List.foldl f _ _) he

end Sys2Proof.Machine
end

