-- ==== Sys2Proof/Laws/PerInstr.lean ====
section
/-! SUPPORT. Statements made once per command. The family OpcodeField: a well-formed command's word has its
opcode in bits 31:28 and its operand in bits 27:0 (spec/30_encoding.md R81, R82). -/

namespace Sys2Proof.Laws.OpcodeField

/-- The opcode of a command (R82). -/
def opcode : Instr → Nat
  | .init => 0x1
  | .pbyte _ => 0x2
  | .pbytes _ => 0x3
  | .gdig _ => 0x4

/-- The argument of a command (R82). -/
def argument : Instr → Nat
  | .init => 0
  | .pbyte b => b.toNat
  | .pbytes len => len
  | .gdig cap => cap

/-- The two fields of the command's word are its opcode and its argument. -/
def Statement (i : Instr) : Prop :=
  i.wellFormed = true →
    (opField (encode i)).toNat = opcode i ∧ (argField (encode i)).toNat = argument i

theorem commandWord_toNat {op arg : Nat} (hop : op < 16) (harg : arg < 268435456) :
    (commandWord op arg).toNat = op * 268435456 + arg := by
  rw [commandWord, BitVec.toNat_ofNat, Nat.mod_eq_of_lt (by norm_num; omega)]
  norm_num

/-- The fields of `OP * 2^28 + ARG` (R81). -/
theorem fields_commandWord {op arg : Nat} (hop : op < 16) (harg : arg < 268435456) :
    (opField (commandWord op arg)).toNat = op ∧ (argField (commandWord op arg)).toNat = arg := by
  rw [opField, argField, BitVec.extractLsb'_toNat, BitVec.extractLsb'_toNat,
    commandWord_toNat hop harg, Nat.shiftRight_eq_div_pow, Nat.shiftRight_eq_div_pow]
  norm_num
  omega

theorem init : Statement .init := fun _ => fields_commandWord (by decide) (by decide)

theorem pbyte (b : Byte) : Statement (.pbyte b) := fun _ =>
  fields_commandWord (by decide) (Nat.lt_trans b.isLt (by decide))

theorem pbytes (len : Nat) : Statement (.pbytes len) := fun h =>
  fields_commandWord (by decide) (of_decide_eq_true h)

theorem gdig (cap : Nat) : Statement (.gdig cap) := fun h =>
  fields_commandWord (by decide) (of_decide_eq_true h)

end Sys2Proof.Laws.OpcodeField
end

