-- ==== Sys2Proof/Laws/Update.lean ====
section
/-! SUPPORT. What storing a byte and the copy loop of an update can do (spec/41_update.md R125, R130). -/

namespace Sys2Proof.Machine

/-! ### Storing one byte -/

/-- Storing a byte touches the buffer, and by a pass `H` and the scratch state; nothing else. -/
theorem storeByte_eq (pos : Offset) (b : Byte) (s : State) :
    storeByte pos b s =
      { s with
        buf := s.buf.write pos.toNat b
        h := (storeByte pos b s).h
        m := (storeByte pos b s).m
        w := (storeByte pos b s).w
        i := (storeByte pos b s).i } := by
  unfold storeByte
  split
  · rw [compressBlock_eq]; rfl
  · rfl

@[simp] theorem storeByte_buf (pos : Offset) (b : Byte) (s : State) :
    (storeByte pos b s).buf = s.buf.write pos.toNat b := by rw [storeByte_eq]
@[simp] theorem storeByte_bl (pos : Offset) (b : Byte) (s : State) :
    (storeByte pos b s).bl = s.bl := by rw [storeByte_eq]
@[simp] theorem storeByte_fin (pos : Offset) (b : Byte) (s : State) :
    (storeByte pos b s).fin = s.fin := by rw [storeByte_eq]
@[simp] theorem storeByte_phase (pos : Offset) (b : Byte) (s : State) :
    (storeByte pos b s).phase = s.phase := by rw [storeByte_eq]
@[simp] theorem storeByte_cmd (pos : Offset) (b : Byte) (s : State) :
    (storeByte pos b s).cmd = s.cmd := by rw [storeByte_eq]
@[simp] theorem storeByte_din (pos : Offset) (b : Byte) (s : State) :
    (storeByte pos b s).din = s.din := by rw [storeByte_eq]
@[simp] theorem storeByte_takes (pos : Offset) (b : Byte) (s : State) :
    (storeByte pos b s).takes = s.takes := by rw [storeByte_eq]
@[simp] theorem storeByte_dout (pos : Offset) (b : Byte) (s : State) :
    (storeByte pos b s).dout = s.dout := by rw [storeByte_eq]
@[simp] theorem storeByte_rst (pos : Offset) (b : Byte) (s : State) :
    (storeByte pos b s).rst = s.rst := by rw [storeByte_eq]
@[simp] theorem storeByte_fresh (pos : Offset) (b : Byte) (s : State) :
    (storeByte pos b s).fresh = s.fresh := by rw [storeByte_eq]

theorem storeByte_h (pos : Offset) (b : Byte) (s : State) :
    (storeByte pos b s).h =
      if pos = 63#6 then compressionFunction s.h (s.buf.write pos.toNat b).read else s.h := by
  unfold storeByte
  split <;> simp

/-- Storing a byte reads neither the phase nor the data-in port. -/
theorem storeByte_enter (pos : Offset) (b : Byte) (p : Phase) (s : State) :
    storeByte pos b (enter p s) = enter p (storeByte pos b s) := by
  unfold storeByte
  split
  · rw [compressBlock_eq, compressBlock_eq]; rfl
  · rfl

theorem storeByte_withDin (pos : Offset) (b : Byte) (d : List Byte) (s : State) :
    storeByte pos b { s with din := d } = { storeByte pos b s with din := d } := by
  unfold storeByte
  split
  · rw [compressBlock_eq, compressBlock_eq]; rfl
  · rfl

/-! ### The copy loop -/

theorem absorb_zero (pos : Offset) (s : State) : absorb 0 pos s = enter .idle s := rfl

theorem absorb_wait {s : State} (h : s.din = []) (size : Nat) (pos : Offset) :
    absorb (size + 1) pos s = enter (.absorb pos (size + 1)) s := by rw [absorb, h]

theorem absorb_byte {s : State} {b : Byte} {rest : List Byte} (h : s.din = b :: rest) (size : Nat)
    (pos : Offset) :
    absorb (size + 1) pos s = absorb size (pos + 1) (storeByte pos b (dinPop s rest)) := by
  rw [absorb, h]

/-- Everything the copy loop leaves alone. -/
theorem absorb_frame (size : Nat) (pos : Offset) (s : State) :
    (absorb size pos s).bl = s.bl ∧ (absorb size pos s).fin = s.fin ∧
    (absorb size pos s).cmd = s.cmd ∧ (absorb size pos s).takes = s.takes ∧
    (absorb size pos s).dout = s.dout ∧ (absorb size pos s).rst = s.rst ∧
    (absorb size pos s).fresh = s.fresh := by
  induction size generalizing pos s with
  | zero => exact ⟨rfl, rfl, rfl, rfl, rfl, rfl, rfl⟩
  | succ size ih =>
    cases hd : s.din with
    | nil => rw [absorb_wait hd]; exact ⟨rfl, rfl, rfl, rfl, rfl, rfl, rfl⟩
    | cons b rest => rw [absorb_byte hd]; simpa using ih (pos + 1) (storeByte pos b (dinPop s rest))

/-- The copy loop consumes the bytes it needs, as far as they are on offer (R71, R72). -/
theorem absorb_din (size : Nat) (pos : Offset) (s : State) :
    (absorb size pos s).din = s.din.drop size := by
  induction size generalizing pos s with
  | zero => rfl
  | succ size ih =>
    cases hd : s.din with
    | nil => rw [absorb_wait hd]; simp [hd]
    | cons b rest => rw [absorb_byte hd, ih]; simp

/-- Where the copy loop ends: idle if the bytes were there, else waiting for what is missing (R72). -/
theorem absorb_phase (size : Nat) (pos : Offset) (s : State) :
    (absorb size pos s).phase =
      if size ≤ s.din.length then .idle
      else .absorb (pos + BitVec.ofNat 6 s.din.length) (size - s.din.length) := by
  induction size generalizing pos s with
  | zero => simp [absorb_zero]
  | succ size ih =>
    cases hd : s.din with
    | nil => rw [absorb_wait hd]; simp
    | cons b rest =>
      rw [absorb_byte hd, ih]
      have hpos : pos + 1 + BitVec.ofNat 6 rest.length = pos + BitVec.ofNat 6 (rest.length + 1) := by
        apply BitVec.eq_of_toNat_eq
        simp only [BitVec.toNat_add, BitVec.toNat_ofNat, BitVec.reduceToNat]
        omega
      simp only [storeByte_din, dinPop_din, List.length_cons, hpos]
      by_cases hle : size ≤ rest.length
      · rw [if_pos hle, if_pos (by omega)]
      · rw [if_neg hle, if_neg (by omega), show size + 1 - (rest.length + 1) = size - rest.length by omega]

/-- The copy loop writes the phase, it does not read it. -/
theorem absorb_enter (size : Nat) (pos : Offset) (p : Phase) (s : State) :
    absorb size pos (enter p s) = absorb size pos s := by
  induction size generalizing pos s with
  | zero => rfl
  | succ size ih =>
    cases hd : s.din with
    | nil => rw [absorb_wait hd, absorb_wait (s := enter p s) hd]; rfl
    | cons b rest =>
      rw [absorb_byte hd, absorb_byte (s := enter p s) hd,
        show dinPop (enter p s) rest = enter p (dinPop s rest) from rfl, storeByte_enter, ih]

/-- The copy loop keeps the canonical form of the buffer. -/
theorem absorb_wf {s : State} (h : s.buf.wf = true) (size : Nat) (pos : Offset) :
    (absorb size pos s).buf.wf = true := by
  induction size generalizing pos s with
  | zero => exact h
  | succ size ih =>
    cases hd : s.din with
    | nil => rw [absorb_wait hd]; exact h
    | cons b rest =>
      rw [absorb_byte hd]
      refine ih (pos := pos + 1) ?_
      rw [storeByte_buf]
      exact Memory.wf_write h pos.isLt b

/-! ### The state a PBYTES works on -/

theorem pbytesState_open (len : Nat) {s : State} (h : s.fin = false) : pbytesState len s = s := by
  simp [pbytesState, workingState_open h]

theorem pbytesState_eq (len : Nat) (s : State) :
    pbytesState len s =
      { s with
        h := (pbytesState len s).h
        bl := (pbytesState len s).bl
        buf := (pbytesState len s).buf
        fresh := (pbytesState len s).fresh } := by
  unfold pbytesState
  split
  · rfl
  · exact workingState_eq s

theorem pbytesState_withDin (len : Nat) (s : State) (d : List Byte) :
    pbytesState len { s with din := d } = { pbytesState len s with din := d } := by
  unfold pbytesState
  split
  · rfl
  · exact workingState_withDin s d

/-! ### The copy loop, cut in two -/

/-- A copy loop is its first part and then its second, where the first part's bytes are on offer. -/
theorem absorb_split (m n : Nat) (pos : Offset) (s : State) (h : m ≤ s.din.length) :
    absorb (m + n) pos s = absorb n (pos + BitVec.ofNat 6 m) (absorb m pos s) := by
  induction m generalizing pos s with
  | zero => simp [absorb_zero, absorb_enter]
  | succ m ih =>
    cases hd : s.din with
    | nil => rw [hd] at h; simp at h
    | cons b rest =>
      rw [absorb_byte hd, show m + 1 + n = (m + n) + 1 by omega, absorb_byte hd,
        ih _ _ (by rw [hd] at h; simpa using h)]
      congr 1
      apply BitVec.eq_of_toNat_eq
      simp only [BitVec.toNat_add, BitVec.toNat_ofNat, BitVec.reduceToNat]
      omega

theorem storeByte_advance (pos : Offset) (b : Byte) (k : Nat) (s : State) :
    storeByte pos b (advanceCounter s k) = advanceCounter (storeByte pos b s) k := by
  unfold storeByte
  split
  · rw [compressBlock_eq, compressBlock_eq]; rfl
  · rfl

/-- The copy loop does not read the counter. -/
theorem absorb_advance (n k : Nat) (pos : Offset) (s : State) :
    absorb n pos (advanceCounter s k) = advanceCounter (absorb n pos s) k := by
  induction n generalizing pos s with
  | zero => rfl
  | succ n ih =>
    cases hd : s.din with
    | nil => rw [absorb_wait hd, absorb_wait (s := advanceCounter s k) hd]; rfl
    | cons b rest =>
      rw [absorb_byte hd, absorb_byte (s := advanceCounter s k) hd, ← ih, ← storeByte_advance]
      rfl

end Sys2Proof.Machine
end

