-- ==== Sys2Proof/Laws/Sequencer.lean ====
section
/-! SUPPORT. What the sequencer's parts do with the phase they find: they write it, they do not read it
(spec/10_state.md R32; spec/43_compress.md R180). -/

namespace Sys2Proof.Machine

theorem compressBlock_enter (p : Phase) (s : State) :
    compressBlock (enter p s) = enter p (compressBlock s) := by
  rw [compressBlock_eq, compressBlock_eq]; rfl

theorem padFresh_enter (p : Phase) (s : State) : padFresh (enter p s) = enter p (padFresh s) := by
  have hb : (padFresh (enter p s)).buf = (padFresh s).buf := by
    rw [padFresh_buf, padFresh_buf, enter_buf, enter_bl]
  rw [padFresh_eq, hb, padFresh_eq s]; rfl

theorem padMarker_enter (p : Phase) (s : State) : padMarker (enter p s) = enter p (padMarker s) := by
  have hb : (padMarker (enter p s)).buf = (padMarker s).buf := by
    rw [padMarker_buf, padMarker_buf, show used (enter p s) = used s from rfl, enter_buf, enter_bl]
  rw [padMarker_eq, hb, padMarker_eq s]; rfl

theorem emit_enter (ks : List (Fin 4)) (hks : ks ≠ []) (p : Phase) (s : State) :
    emit ks (enter p s) = emit ks s := by
  induction ks generalizing s with
  | nil => exact absurd rfl hks
  | cons k rest ih =>
    rw [emit, emit]
    split
    · rename_i h; rw [if_pos (show s.takes = 0 from h)]; rfl
    · rename_i h
      rw [if_neg (show ¬ s.takes = 0 from h)]
      cases rest with
      | nil => rfl
      | cons k' rest' => exact ih (by simp) (doutPush s (digestWord s.h k))

theorem runRounds_enter (n : Nat) (p : Phase) (s : State) :
    runRounds n (enter p s) = enter p (runRounds n s) := by
  induction n generalizing s with
  | zero => rfl
  | succ n ih => rw [runRounds, runRounds, ← ih]; rfl

/-- The load step opens the pass that `.load` stands for (R180). -/
theorem finishPass_loadPass (s : State) : finishPass .round (loadPass s) = finishPass .load s := by
  show chainingAdd (runRounds (64 - 0) (loadPass s)) = compressBlock s
  unfold compressBlock
  rfl

theorem allDigestWords_drop :
    ∀ k : Fin 4, allDigestWords.drop k.val = k :: allDigestWords.drop (k.val + 1) := by decide

end Sys2Proof.Machine
end

