-- ==== Sys2Proof/Tests/Slice0.lean ====
section
/-! SUPPORT. Tests of single operations and single steps against values the spec gives (spec/95, cited by
section or by name), and for every statement with hypotheses a state that meets them. -/

namespace Sys2Proof.Tests

open Sys2Proof.Machine

/-! ### Helpers -/

/-- The reset state with a counter, the first bytes of the buffer, and what stands at the ports. -/
def small (bl : Counter) (bytes : List Byte) (din : List Byte) (takes : Nat) : State :=
  { State.reset with bl := bl, buf := Memory.writeAll [] 0 bytes, din := din, takes := takes }

/-- The counting pattern `s, s+1, ...` of spec/95. -/
def cnt (s n : Nat) : List Byte := (List.range n).map fun t => BitVec.ofNat 8 (s + t)

/-- Something of the next state, if there is one. -/
def look {α : Type} (f : State → α) : Host.Outcome State Fault Refusal → Option α
  | .next s => some (f s)
  | .fault _ => none
  | .refused _ => none

/-- A block given as a list. -/
def bytesOf (l : List Byte) : Nat → Byte := fun p => l.getD p 0x00#8

/-! ### Well-formedness (R85, R86, R96) -/

theorem test_wf_refuses_long_pbytes : (Instr.pbytes 268435456).wellFormed = false := by decide
theorem test_wf_admits_longest_pbytes : (Instr.pbytes 268435455).wellFormed = true := by decide
theorem test_wf_refuses_large_gdig : (Instr.gdig 268435456).wellFormed = false := by decide
theorem test_wf_admits_largest_gdig : (Instr.gdig 268435455).wellFormed = true := by decide
theorem test_asm_refuses_large_pbyte : assemble (.pbyte 256) = none := by decide
theorem test_asm_refuses_short_data : assemble (.pbytes 2 [0x61#8]) = none := by decide

/-! ### Decoding and encoding: words written out from 30_encoding R87 to R90, R92, and 95 section 2.1 -/

theorem test_decode_init : decode 0b00010000000000000000000000000000#32 = .ok .init := by rfl
theorem test_decode_pbyte : decode 0b00100000000000000000000001100001#32 = .ok (.pbyte 0x61#8) := by rfl
theorem test_decode_pbytes : decode 0b00110000000000000000000001000000#32 = .ok (.pbytes 64) := by rfl
theorem test_decode_gdig : decode 0b01000000000000000000000000010000#32 = .ok (.gdig 16) := by rfl
theorem test_decode_longest : decode 0x3fffffff#32 = .ok (.pbytes 268435455) := by rfl
theorem test_decode_zero_word : decode 0x00000000#32 = .error .opcodeZero := by rfl
theorem test_decode_init_argument : decode 0x1fffffff#32 = .error .initArgument := by rfl
theorem test_decode_pbyte_argument : decode 0x28000061#32 = .error .pbyteArgument := by rfl
theorem test_decode_high_opcode : decode 0x80000000#32 = .error .opcodeHigh := by rfl
theorem test_encode_pbytes : encode (.pbytes 1000) = 0x300003e8#32 := by decide
theorem test_encode_pbyte : encode (.pbyte 0x80#8) = 0x20000080#32 := by decide
theorem test_encode_gdig : encode (.gdig 4) = 0x40000004#32 := by decide
theorem test_table_word : decodeTableWord 32 0x10000000 = some .init := by decide
theorem test_table_reserved : decodeTableWord 32 0x50000004 = none := by decide

/-! ### Arithmetic (95 section 2.2) -/

theorem test_rotl_7 : rotl 0x57ce06d8#32 7 = 0xe7036c2b#32 := by decide
theorem test_rotl_23 : rotl 0x12345678#32 23 = 0x3c091a2b#32 := by decide
theorem test_bswap : bswap32 0x12345678#32 = 0x78563412#32 := by decide
theorem test_stage_functions :
    [0#6, 31#6, 32#6, 63#6].map (stageFunction · 0x12345678#32 0x9abcdef0#32 0x0fedcba9#32) =
      [0x1ffddff1#32, 0x92345678#32, 0x87654321#32, 0x688aa88e#32] := by decide
theorem test_word_select :
    [15#6, 17#6, 31#6, 33#6, 47#6, 49#6, 63#6].map wordSelect = [15, 6, 12, 8, 2, 7, 9] := by decide
theorem test_tables : kTable.length = 64 ∧ roundConstant 16#6 = 0xf61e2562#32 ∧
    [3#6, 20#6, 34#6, 63#6].map rotationAmount = [22, 5, 16, 21] := by decide
theorem test_counter_carry : advance 0x00000000fffffff8#64 1 = 0x0000000100000000#64 := by decide
theorem test_counter_wrap : advance 0xfffffffffffffff8#64 1 = 0#64 := by decide
theorem test_used : [0x18#64, 0x1f8#64, 0x200#64, 0x1f40#64].map usedOf = [3#6, 63#6, 0#6, 40#6] := by
  decide
theorem test_length_bytes : leBytes 8 0x0123456789abcdef =
    [0xef#8, 0xcd#8, 0xab#8, 0x89#8, 0x67#8, 0x45#8, 0x23#8, 0x01#8] := by decide

/-! ### The pass (95 section 2.4) -/

/-- T1, round 0 of the block of "abc". -/
theorem test_round_zero :
    roundQuad (schedule (bytesOf [0x61#8, 0x62#8, 0x63#8, 0x80#8])) 0#6 iv =
      ⟨0x10325476#32, 0xd6d117b4#32, 0xefcdab89#32, 0x98badcfe#32⟩ := by decide

/-- T3, the row `(0xffffffff, ...)`, `cnt(0)`. -/
theorem test_compression_ones :
    compressionFunction ⟨0xffffffff#32, 0xffffffff#32, 0xffffffff#32, 0xffffffff#32⟩
        (bytesOf (cnt 0 64)) =
      ⟨0xcdf3fcdd#32, 0xc510339b#32, 0xebe311fa#32, 0x514eca4d#32⟩ := by decide +kernel

/-! ### The commands, one step each -/

/-- INIT from 65 bytes into a message (95 section 2.3, third row). -/
theorem test_init_mid_message :
    look id (exec .init { State.reset with
      h := ⟨0x89d4ff56#32, 0x125cd962#32, 0x69cade33#32, 0x0033e325#32⟩
      bl := 0x208#64, buf := [(0, 0x61#8)] }) = some State.reset := by decide

/-- INIT after finalization (95 section 2.3, second row). -/
theorem test_init_clears_fin :
    look (fun s => (s.h, s.bl, s.fin)) (exec .init { State.reset with bl := 0x18#64, fin := true }) =
      some (iv, 0#64, false) := by decide

/-- PBYTE, W1: the byte completes the block, the counter carries into its high half. -/
theorem test_pbyte_completes_block :
    look (fun s => (s.h, s.bl, s.buf)) (exec (.pbyte 0x5a#8) (small 0x00000000fffffff8#64 [] [] 0)) =
      some (⟨0x89ba6c4c#32, 0xef22d19c#32, 0x1d596ed2#32, 0x530cf991#32⟩, 0x0000000100000000#64,
        [(63, 0x5a#8)]) := by decide +kernel

/-- PBYTE from `used = 62`: no pass (95 section 2.5). -/
theorem test_pbyte_no_pass :
    look (fun s => (s.h, s.bl, s.buf.read 62)) (exec (.pbyte 0x07#8) (small 0x1f0#64 [] [0xff#8] 0)) =
      some (iv, 0x1f8#64, 0x07#8) := by decide +kernel

/-- PBYTES, row `(63, 2)` of the U-table: `H` and the two bytes stored, and the byte left on DIN. -/
theorem test_pbytes_straddles :
    look (fun s => (s.h, s.bl, s.buf.read 0, s.buf.read 63, s.din))
      (exec (.pbytes 2) (small 0x1f8#64 (cnt 0x10 63) [0xa0#8, 0xa1#8, 0xa2#8] 0)) =
      some (⟨0x374b2f8e#32, 0xc141d844#32, 0x95ddd96f#32, 0xe9caceb2#32⟩, 0x208#64, 0xa1#8, 0xa0#8,
        [0xa2#8]) := by decide +kernel

/-- PBYTES 5 with two bytes on offer (95 section 2.8): the counter has the whole length, the block waits. -/
theorem test_pbytes_waits :
    look (fun s => (s.bl, s.buf, s.din, s.phase)) (exec (.pbytes 5) (small 0#64 [] [0x01#8, 0x02#8] 0)) =
      some (0x28#64, [(0, 0x01#8), (1, 0x02#8)], [], .absorb 2#6 3) := by decide +kernel

/-- GDIG 4 on "abc" (95 section 2.6, capacity table). -/
theorem test_gdig_abc :
    look (fun s => (s.dout, s.bl, s.fin, s.buf))
      (exec (.gdig 4) (small 0x18#64 [0x61#8, 0x62#8, 0x63#8] [] 5)) =
      some ([0x90015098#32, 0x3cd24fb0#32, 0xd6963f7d#32, 0x28e17f72#32], 0x18#64, true,
        [(0, 0x61#8), (1, 0x62#8), (2, 0x63#8), (3, 0x80#8), (56, 0x18#8)]) := by decide +kernel

/-- GDIG on 56 bytes, the two-block case (95 P7), with two takes ready: two words taken, the third on
offer, `FIN` still 0. -/
theorem test_gdig_two_blocks_waiting :
    look (fun s => (s.dout, s.phase, s.fin, s.buf))
      (exec (.gdig 4) (small 0x1c0#64 (List.replicate 56 0x61#8) [] 2)) =
      some ([0x3b0c8ac7#32, 0x03f828b0#32], .emit 2, false, [(56, 0xc0#8), (57, 0x01#8)]) := by
  decide +kernel

/-- A step takes the word at the head of the CMD port. -/
theorem test_step_takes_command :
    look (fun s => (s.cmd, s.bl, s.buf)) (step { State.reset with cmd := [0x20000061#32, 0x10000000#32] }) =
      some ([0x10000000#32], 0x8#64, [(0, 0x61#8)]) := by decide +kernel

/-- The host's way of placing an instruction: the very next step runs it. -/
theorem test_step_runs_placed_word :
    look (fun s => (s.cmd, s.phase, s.bl)) (step (State.reset.withFetchWord 32 0x30000007)) =
      some ([], .absorb 0#6 7, 0x38#64) := by decide +kernel

/-- A reset event during a starved PBYTES (95 P10). -/
theorem test_reset_abandons :
    look id (step { State.reset with
      bl := 0x28#64, buf := [(0, 0x01#8), (1, 0x02#8)], phase := .absorb 2#6 3, rst := true }) =
      some State.reset := by decide

/-! ### Witnesses: for each statement with hypotheses, inputs that meet them all -/

theorem witness_DecodeEncodeRoundTrip :
    (Instr.pbytes 268435455).wellFormed = true ∧ (Instr.gdig 268435455).wellFormed = true ∧
      (Instr.pbyte 0xff#8).wellFormed = true := by decide
theorem witness_EncodeDecodeRoundTrip : decode 0x200000ff#32 = .ok (.pbyte 0xff#8) := by rfl

theorem witness_StepRunsDecodedCommand :
    ∃ s : State, s.rst = false ∧ s.phase = .idle ∧ s.cmd = [0x40000004#32] ∧
      decode 0x40000004#32 = .ok (.gdig 4) :=
  ⟨{ State.reset with cmd := [0x40000004#32] }, rfl, rfl, rfl, rfl⟩
theorem witness_StepDiscardsReservedWord :
    ∃ s : State, s.rst = false ∧ s.phase = .idle ∧ s.cmd = [0x50000004#32, 0x10000000#32] ∧
      decode 0x50000004#32 = .error .opcodeHigh :=
  ⟨{ State.reset with cmd := [0x50000004#32, 0x10000000#32] }, rfl, rfl, rfl, rfl⟩
theorem witness_IdleStepWithoutCommandStays :
    State.reset.rst = false ∧ State.reset.phase = .idle ∧ State.reset.cmd = [] := by decide
theorem witness_StepResetRestoresInitialState : ∃ s : State, s.rst = true :=
  ⟨{ small 0x18#64 [0x61#8] [0x62#8] 1 with rst := true, phase := .emit 2 }, rfl⟩
theorem witness_BusyStepCarriesCommandOn : ∃ s : State, s.rst = false ∧ s.phase ≠ .idle :=
  ⟨{ State.reset with phase := .absorb 2#6 3, din := [0x03#8] }, by decide⟩
theorem witness_InitIdempotent :
    (∃ t, exec .init { State.reset with fin := true, bl := 8#64 } = .next t) ∧
      ∃ s t : State, s.rst = true ∧ step s = .next t :=
  ⟨⟨_, rfl⟩, { State.reset with rst := true }, _, rfl, rfl⟩

theorem witness_WorkingStateKeepsTheRest :
    (∃ s : State, s.fin = false) ∧ ∃ s : State, s.fin = true :=
  ⟨⟨State.reset, rfl⟩, ⟨{ State.reset with fin := true }, rfl⟩⟩
theorem witness_AfterFinalizationOrdinaryRuleRuns :
    (∃ s : State, usesAfterFinalize (.pbyte 0x61#8) s = true ∧ Instr.pbyte 0x61#8 ≠ .pbytes 0) ∧
    (∃ s : State, usesAfterFinalize (.pbytes 1) s = true ∧ Instr.pbytes 1 ≠ .pbytes 0) ∧
    (∃ s : State, usesAfterFinalize (.gdig 4) s = true ∧ Instr.gdig 4 ≠ .pbytes 0) :=
  ⟨⟨{ State.reset with fin := true }, by decide⟩, ⟨{ State.reset with fin := true }, by decide⟩,
    ⟨{ State.reset with fin := true }, by decide⟩⟩
/-- `used = 62` and `used = 63`. -/
theorem witness_PbyteStoresByte :
    (∃ s : State, s.fin = false ∧ s.buf.wf = true ∧ (used s).toNat = 62) ∧
    (∃ s : State, s.fin = false ∧ s.buf.wf = true ∧ (used s).toNat = 63) :=
  ⟨⟨small 0x1f0#64 (cnt 1 62) [] 0, by decide +kernel⟩, ⟨small 0x1f8#64 (cnt 1 63) [] 0, by decide +kernel⟩⟩
theorem witness_PbytesFollowsThreeSteps :
    ∃ s : State, s.fin = false ∧ s.din = cnt 0xa0 66 ++ [0x01#8] ∧ (cnt 0xa0 66).length = 66 ∧
      used s = 63#6 :=
  ⟨small 0x1f8#64 [] (cnt 0xa0 66 ++ [0x01#8]) 0, rfl, rfl, rfl, rfl⟩
theorem witness_PbytesZeroChangesNothing : State.reset.phase = .idle := rfl
theorem witness_PbytesConsumesItsBytes :
    ∃ i s t, (∀ len, i ≠ Instr.pbytes len) ∧ exec i s = .next t :=
  ⟨.pbyte 0x61#8, State.reset, _, fun _ => Instr.noConfusion, rfl⟩
/-- A command that owes three bytes and finds one. -/
theorem witness_OnlyPbytesConsumesBytes :
    ∃ s t : State, step s = .next t ∧ t.din ≠ s.din ∧ s.phase = .absorb 2#6 3 :=
  ⟨{ small 0x28#64 [0x01#8, 0x02#8] [0x03#8] 0 with phase := .absorb 2#6 3 }, _, rfl, by decide +kernel, rfl⟩
theorem witness_PbytesBufferBytes :
    ∃ s : State, s.fin = false ∧ s.din = [0xa0#8, 0xa1#8] ++ [0xa2#8] ∧
      [0xa0#8, 0xa1#8].length = 2 ∧ s.buf.wf = true ∧ (used s).toNat = 63 :=
  ⟨small 0x1f8#64 (cnt 0x10 63) [0xa0#8, 0xa1#8, 0xa2#8] 0, by decide +kernel⟩
/-- One byte short of a block, and exactly a block. -/
theorem witness_PbytesChainsCompletedBlocks :
    (∃ s : State, s.fin = false ∧ s.din = [0xa0#8] ++ [] ∧ [0xa0#8].length = 1 ∧ s.buf.wf = true ∧
      (used s).toNat + 1 = 63) ∧
    (∃ s : State, s.fin = false ∧ s.din = [0xa0#8] ++ [] ∧ [0xa0#8].length = 1 ∧ s.buf.wf = true ∧
      (used s).toNat + 1 = 64) :=
  ⟨⟨small 0x1f0#64 (cnt 1 62) [0xa0#8] 0, by decide +kernel⟩,
    ⟨small 0x1f8#64 (cnt 1 63) [0xa0#8] 0, by decide +kernel⟩⟩
theorem witness_PbytesWaitsForData : ∃ s : State, s.din.length < 5 ∧ s.rst = false :=
  ⟨small 0#64 [] [0x01#8, 0x02#8] 0, by decide⟩
theorem witness_LateBytesEndAlike :
    ∃ t, [0x01#8, 0x02#8].length < 5 ∧
      exec (.pbytes 5) { State.reset with din := [0x01#8, 0x02#8] } = .next t :=
  ⟨_, by decide, rfl⟩
theorem witness_ChunkingInvariance : ∃ s : State, s.fin = false ∧ 1 + 2 ≤ s.din.length :=
  ⟨small 0x1f8#64 (cnt 1 63) [0x01#8, 0x02#8, 0x03#8] 0, by decide⟩
theorem witness_ByteByByteEquivalence :
    ∃ s : State, s.fin = false ∧ s.phase = .idle ∧ s.din = [0x01#8, 0x02#8] ++ [0x03#8] :=
  ⟨small 0x1f8#64 (cnt 1 63) [0x01#8, 0x02#8, 0x03#8] 0, rfl, rfl, rfl⟩

/-- The largest capacity that does nothing, and the smallest that is effective. -/
theorem witness_GdigCapacityGuard :
    3 < 4 ∧ (∃ t, exec (.gdig 3) State.reset = .next t) ∧ ∃ t, exec (.gdig 4) State.reset = .next t :=
  ⟨by decide, ⟨_, rfl⟩, ⟨_, rfl⟩⟩
theorem witness_GdigSendsDigestWords : ∃ s : State, s.fin = false ∧ 4 ≤ 4 ∧ 4 ≤ s.takes :=
  ⟨small 0x18#64 [0x61#8, 0x62#8, 0x63#8] [] 4, by decide⟩
theorem witness_GdigOneBlock :
    ∃ s : State, s.fin = false ∧ 4 ≤ 4 ∧ s.buf.wf = true ∧ (used s).toNat = 55 :=
  ⟨small 0x1b8#64 (cnt 1 55) [] 4, by decide +kernel⟩
theorem witness_GdigTwoBlocks :
    (∃ s : State, s.fin = false ∧ 4 ≤ 4 ∧ s.buf.wf = true ∧ (used s).toNat = 56) ∧
    (∃ s : State, s.fin = false ∧ 4 ≤ 4 ∧ s.buf.wf = true ∧ (used s).toNat = 63) :=
  ⟨⟨small 0x1c0#64 (cnt 1 56) [] 4, by decide +kernel⟩, ⟨small 0x1f8#64 (cnt 1 63) [] 4, by decide +kernel⟩⟩
theorem witness_GdigEndState :
    (∃ s : State, s.fin = false ∧ 4 ≤ 4 ∧ s.buf.wf = true ∧ (used s).toNat = 55) ∧
    (∃ s : State, s.fin = false ∧ 4 ≤ 4 ∧ s.buf.wf = true ∧ (used s).toNat = 56) :=
  ⟨⟨small 0x1b8#64 (cnt 1 55) [] 4, by decide +kernel⟩, ⟨small 0x1c0#64 (cnt 1 56) [] 4, by decide +kernel⟩⟩
theorem witness_GdigWaitsForTakes :
    ∃ (s : State) (k : Fin 4), 4 ≤ 4 ∧ s.takes = k.val ∧ k = 3 ∧ s.rst = false :=
  ⟨small 0#64 [] [] 3, 3, by decide⟩
theorem witness_LateTakesEndAlike :
    ∃ t, 4 ≤ 4 ∧ 3 < 4 ∧ exec (.gdig 4) { State.reset with takes := 3 } = .next t :=
  ⟨_, by decide, by decide, rfl⟩
theorem witness_OnlyGdigSends :
    (∃ s t, exec (.gdig 4) s = .next t) ∧ ∃ s t, exec (.gdig 3) s = .next t :=
  ⟨⟨State.reset, _, rfl⟩, ⟨State.reset, _, rfl⟩⟩
theorem witness_FinalizedFlagWriters :
    (∃ s t, exec .init s = .next t) ∧ (∃ s t, exec (.gdig 4) s = .next t ∧ 4 ≤ s.takes) ∧
      ∃ s t, exec (.gdig 4) s = .next t ∧ s.takes = 3 :=
  ⟨⟨State.reset, _, rfl⟩, ⟨small 0#64 [] [] 4, _, rfl, by decide⟩, ⟨small 0#64 [] [] 3, _, rfl, by decide⟩⟩

theorem witness_RotationFormula : (1 ≤ 1 ∧ 1 ≤ 31) ∧ (1 ≤ 31 ∧ 31 ≤ 31) ∧ (0 < 32 ∧ 31 < 32) := by decide
/-- The last round of each stage and the first of the next. -/
theorem witness_StageFunctionBits :
    (15#6).toNat ≤ 15 ∧ (16 ≤ (16#6).toNat ∧ (16#6).toNat ≤ 31) ∧
    (16 ≤ (31#6).toNat ∧ (31#6).toNat ≤ 31) ∧ (32 ≤ (32#6).toNat ∧ (32#6).toNat ≤ 47) ∧
    (32 ≤ (47#6).toNat ∧ (47#6).toNat ≤ 47) ∧ 48 ≤ (48#6).toNat ∧ 31 < 32 := by decide
theorem witness_LengthFieldBytes :
    (small 0x0123456789abcdef#64 (cnt 1 64) [] 0).buf.wf = true ∧ 7 < 8 ∧ (55 < 56 ∨ 64 ≤ 55) ∧
      (64 < 56 ∨ 64 ≤ 64) := by decide +kernel
theorem witness_PassIsPure :
    ∃ s t : State, s ≠ t ∧ s.h = t.h ∧ ∀ p, p < 64 → s.buf.read p = t.buf.read p :=
  ⟨State.reset, { State.reset with bl := 8#64, i := 5#6 }, by decide, rfl, fun _ _ => rfl⟩
theorem witness_CounterHalvesAgree : 268435455 < 2 ^ 28 := by decide

theorem witness_CommandIsStartThenFinish : State.reset.phase = .idle := rfl
theorem witness_ServedCommandsComplete :
    (∃ s : State, s.phase = .idle ∧ portsServe (.pbytes 2) s = true) ∧
    (∃ s : State, s.phase = .idle ∧ portsServe (.gdig 4) s = true) ∧
    (∃ s : State, s.phase = .idle ∧ portsServe (.gdig 3) s = true) :=
  ⟨⟨small 0x1f8#64 [] [0x01#8, 0x02#8] 0, by decide⟩, ⟨small 0#64 [] [] 4, by decide⟩,
    ⟨small 0#64 [] [] 0, by decide⟩⟩
theorem witness_StepKeepsInvariant :
    ∃ s t, StateInv s ∧ s.phase = .absorb 62#6 3 ∧ step s = .next t :=
  ⟨{ small 0x208#64 (cnt 1 62) [0x01#8] 0 with phase := .absorb 62#6 3 }, _,
    by unfold StateInv; decide +kernel, rfl, rfl⟩

theorem witness_UpdatesExtendMessage : Holds [] (small 0#64 [] [0x61#8] 4) :=
  ⟨rfl, rfl, rfl, rfl, rfl, fun _ h => absurd h (by simp)⟩
theorem witness_UpdatesExtendMessage_data :
    (small 0#64 [] [0x61#8] 4).din = [0x61#8] ++ [] := rfl
/-- A block that holds a message of one byte. -/
theorem witness_GdigSendsMessageDigest :
    Holds [0x61#8] (small 0x8#64 [0x61#8] [] 4) ∧ 4 ≤ 4 ∧ 4 ≤ (small 0x8#64 [0x61#8] [] 4).takes :=
  ⟨⟨rfl, rfl, rfl, rfl, rfl, fun p h => by
    have hp : p = 0 := by simpa using h
    subst hp; rfl⟩, by decide, by decide⟩
theorem witness_SessionSendsMd5 :
    ∃ s : State, [Instr.pbytes 2, .gdig 3, .init, .pbyte 0x61#8, .pbytes 1].all bodyCommand = true ∧
      dataNeeded [Instr.pbytes 2, .gdig 3, .init, .pbyte 0x61#8, .pbytes 1] ≤ s.din.length ∧ 4 ≤ 4 ∧
      4 ≤ s.takes :=
  ⟨small 0#64 [] [0x78#8, 0x79#8, 0x62#8] 4, by decide⟩
theorem witness_LegalRunsDrawNoFreeValue :
    legalFrom false [.pbyte 0x61#8, .gdig 4, .init] = true ∧
    ∃ s t, s.fin = false ∧ harmlessFrom false [.pbyte 0x61#8, .gdig 4, .gdig 0, .init] = true ∧
      execAll [.pbyte 0x61#8, .gdig 4, .gdig 0, .init] s = .next t :=
  ⟨by decide, small 0#64 [] [] 4, _, by decide, by decide, rfl⟩
/-- R238: after an effective GDIG only INIT may follow, not even a GDIG that does nothing. -/
theorem test_legal_after_gdig :
    legalFrom false [.gdig 0, .gdig 4, .init, .gdig 3, .pbytes 1] = true ∧
      legalFrom false [.gdig 4, .gdig 0] = false ∧ legalFrom false [.gdig 4, .gdig 4] = false ∧
      legalFrom false [.gdig 4, .pbytes 0] = false := by decide

theorem witness_AssembledMd5 :
    [0x61#8, 0x62#8, 0x63#8].length ≤ 268435455 ∧
      ∃ data : List Byte, data.length = 268435456 ∧ 268435455 < data.length :=
  ⟨by decide, List.replicate 268435456 0x00#8, List.length_replicate, by
    rw [List.length_replicate]; norm_num⟩
theorem witness_AssembledLinesFit :
    assemble (.pstr "abc") = some ([.pbytes 3], [0x61#8, 0x62#8, 0x63#8]) := by decide
/-- R97, third row: one byte more than fits its field. -/
theorem test_asm_long_pbytes :
    pbytesCommands 268435456 = [.pbytes 268435455, .pbytes 1] ∧ pbytesCommands 0 = [.pbytes 0] ∧
      assemble (.longPbytes 0 []) = none := by decide

/-- The PBYTE that completes a block starts in ABSORB, and its pass starts from there (R32). -/
theorem test_pbyte_phases :
    (start (.pbyte 0x5a#8) (small 0x1f8#64 [] [] 0)).phase = .absorbByte 63#6 0x5a#8 ∧
      (tick (start (.pbyte 0x5a#8) (small 0x1f8#64 [] [] 0))).phase = .compress .load (.absorb 0) := by
  decide +kernel
theorem witness_PhaseSuccessors : (small 0x1f8#64 [] [] 0).phase = .idle := rfl

end Sys2Proof.Tests
end

section
/-! The refinement between the two views of the sequencer (spec/00_scope.md R16, spec/43_compress.md R180):
`finish` writes PHASE and reads only which command is in progress, so each action of `tick` is the first part of
what `finish` does from its phase. -/

namespace Sys2Proof.Machine

/-! ### The rest of a command does not read the phase register -/

theorem allDigestWords_drop_ne_nil (k : Fin 4) : allDigestWords.drop k.val ≠ [] := by
  rw [allDigestWords_drop]
  exact List.cons_ne_nil _ _

theorem emit_all_enter (p : Phase) (s : State) :
    emit allDigestWords (enter p s) = emit allDigestWords s :=
  emit_enter _ (allDigestWords_drop_ne_nil 0) p s

theorem finalPasses_enter (p : Phase) (s : State) :
    finalPasses (enter p s) = enter p (finalPasses s) := by
  unfold finalPasses
  rw [used_enter]
  split
  · rw [padMarker_enter, compressBlock_enter, padFresh_enter, compressBlock_enter]
  · rw [padMarker_enter, compressBlock_enter]

theorem finishPass_enter (part : PassPart) (p : Phase) (s : State) :
    finishPass part (enter p s) = enter p (finishPass part s) := by
  cases part with
  | load => exact compressBlock_enter p s
  | round => rw [finishPass, enter_i, runRounds_enter]; rfl
  | add => rfl

theorem finishAfter_enter (after : After) (p : Phase) (s : State) :
    finishAfter after (enter p s) = finishAfter after s := by
  cases after with
  | absorb size => exact absorb_enter size 0#6 p s
  | padding => rw [finishAfter, padFresh_enter, compressBlock_enter, emit_all_enter, finishAfter]
  | emit => exact emit_all_enter p s

/-! ### The rest of a command from each phase -/

@[simp] theorem finish_enter_idle (s : State) : finish (enter .idle s) = enter .idle s := rfl

@[simp] theorem finish_enter_absorb (pos : Offset) (size : Nat) (s : State) :
    finish (enter (.absorb pos size) s) = absorb size pos s :=
  absorb_enter size pos _ s

@[simp] theorem finish_enter_absorbByte (pos : Offset) (b : Byte) (s : State) :
    finish (enter (.absorbByte pos b) s) = enter .idle (storeByte pos b s) := by
  change enter .idle (storeByte pos b (enter _ s)) = _
  rw [storeByte_enter, enter_enter]

@[simp] theorem finish_enter_compress (part : PassPart) (after : After) (s : State) :
    finish (enter (.compress part after) s) = finishAfter after (finishPass part s) := by
  change finishAfter after (finishPass part (enter _ s)) = _
  rw [finishPass_enter, finishAfter_enter]

@[simp] theorem finish_enter_marker (s : State) :
    finish (enter (.padding .marker) s) = emit allDigestWords (finalPasses s) := by
  change emit allDigestWords (finalPasses (enter _ s)) = _
  rw [finalPasses_enter, emit_all_enter]

@[simp] theorem finish_enter_fresh (s : State) :
    finish (enter (.padding .fresh) s) = emit allDigestWords (compressBlock (padFresh s)) := by
  change emit allDigestWords (compressBlock (padFresh (enter _ s))) = _
  rw [padFresh_enter, compressBlock_enter, emit_all_enter]

@[simp] theorem finish_enter_emit (k : Fin 4) (s : State) :
    finish (enter (.emit k) s) = emit (allDigestWords.drop k.val) s :=
  emit_enter _ (allDigestWords_drop_ne_nil k) _ s

/-- So what is left to do from a state of a known phase is one of the equations above. -/
theorem finish_of_phase {s : State} {p : Phase} (h : s.phase = p) : finish s = finish (enter p s) := by
  rw [← h, enter_self]

/-- Going on to the phase that follows a pass is what the rest of the command does next. -/
theorem finish_enter_afterPhase (after : After) (s : State) :
    finish (enter after.phase s) = finishAfter after s := by
  cases after with
  | absorb size => exact finish_enter_absorb 0#6 size s
  | padding => exact finish_enter_fresh s
  | emit => exact finish_enter_emit 0 s

/-! ### One action is the first part of the rest of the command -/

/-- Copying a byte and then running the pass it may have made due is storing the byte (R122, R130); the offset
after 63 is 0. -/
theorem finish_byteCopied (pos : Offset) (b : Byte) (size : Nat) (s : State) :
    finish (enter (if pos = 63#6 then .compress .load (.absorb size) else .absorb (pos + 1) size)
      (setBuf s pos.toNat b)) = absorb size (pos + 1) (storeByte pos b s) := by
  by_cases hpos : pos = 63#6
  · subst hpos
    rw [if_pos rfl, finish_enter_compress, storeByte, if_pos rfl]
    rfl
  · rw [if_neg hpos, finish_enter_absorb, storeByte, if_neg hpos]

/-- One round and then the rest of the pass is the rest of the pass; the round numbered 63 is the last. -/
theorem finishPass_roundStep (s : State) :
    finishPass (if s.i = 63#6 then .add else .round) (roundStep s) = finishPass .round s := by
  by_cases hi : s.i = 63#6
  · rw [if_pos hi, finishPass, finishPass, hi]
    rfl
  · have hlt : s.i.toNat < 63 := by bv_omega
    have hleft : Config.rounds - s.i.toNat = (Config.rounds - (s.i.toNat + 1)) + 1 := by
      simp only [Config.rounds]; omega
    rw [if_neg hi, finishPass, finishPass, roundStep_i, nextRound_toNat hlt, hleft, runRounds]

/-- The final passes are the pass over the marker block and what follows that pass (R144, R145). -/
theorem emit_finalPasses (s : State) :
    emit allDigestWords (finalPasses s) =
      finishAfter (if needsSecondBlock (used s) then .padding else .emit)
        (compressBlock (padMarker s)) := by
  unfold finalPasses
  split <;> rfl

/-- A copied byte, or the wait for one, leaves where the PBYTES ends. -/
theorem finish_tick_absorb {s : State} {pos : Offset} {size : Nat} (h : s.phase = .absorb pos size) :
    finish (tick s) = finish s := by
  rw [finish_of_phase h, finish_enter_absorb]
  cases size with
  | zero => simp only [tick, h, finish_enter_idle, absorb_zero]
  | succ size =>
    cases hd : s.din with
    | nil => simp only [tick, h, hd, finish_of_phase h, finish_enter_absorb]
    | cons b rest => simp only [tick, h, hd, finish_byteCopied, absorb_byte hd]

/-- The byte of a PBYTE, and the pass it may make due, leave where the PBYTE ends. -/
theorem finish_tick_absorbByte {s : State} {pos : Offset} {b : Byte} (h : s.phase = .absorbByte pos b) :
    finish (tick s) = finish s := by
  rw [finish_of_phase h, finish_enter_absorbByte]
  simp only [tick, h, finish_byteCopied, absorb_zero]

/-- A part of a pass leaves where the command that needs the pass ends (R180). -/
theorem finish_tick_compress {s : State} {part : PassPart} {after : After}
    (h : s.phase = .compress part after) : finish (tick s) = finish s := by
  rw [finish_of_phase h, finish_enter_compress]
  cases part with
  | load => simp only [tick, h, finish_enter_compress, finishPass_loadPass]
  | round => simp only [tick, h, finish_enter_compress, finishPass_roundStep]
  | add => simp only [tick, h, finish_enter_afterPhase, finishPass]

/-- A padded block leaves where the GDIG ends. -/
theorem finish_tick_padding {s : State} {block : PadBlock} (h : s.phase = .padding block) :
    finish (tick s) = finish s := by
  rw [finish_of_phase h]
  cases block with
  | marker => simp only [tick, h, finish_enter_compress, finishPass, finish_enter_marker, emit_finalPasses]
  | fresh => simp only [tick, h, finish_enter_compress, finishPass, finish_enter_fresh, finishAfter]

/-- A word sent, or the wait for its take, leaves where the GDIG ends. -/
theorem finish_tick_emit {s : State} {k : Fin 4} (h : s.phase = .emit k) :
    finish (tick s) = finish s := by
  by_cases ht : s.takes = 0
  · simp only [tick, h, if_pos ht]
  · rw [finish_of_phase h, finish_enter_emit, allDigestWords_drop, emit, if_neg ht]
    by_cases hk : k = 3
    · subst hk
      simp only [tick, h, if_neg ht, if_true, finish_enter_idle]
      rfl
    · have hnext : (k + 1).val = k.val + 1 := by omega
      simp only [tick, h, if_neg ht, if_neg hk, finish_enter_emit, hnext]

/-- Settles O47, phase by phase: what `tick` does is the first part of what `finish` does. -/
theorem tickKeepsTheOutcome : Obligations.TickKeepsTheOutcome := by
  intro s
  cases h : s.phase with
  | idle => simp only [tick, h]
  | absorb pos size => exact finish_tick_absorb h
  | absorbByte pos b => exact finish_tick_absorbByte h
  | compress part after => exact finish_tick_compress h
  | padding block => exact finish_tick_padding h
  | emit k => exact finish_tick_emit h

/-- Settles O48, command by command: `start` enters a phase from which `finish` is the command's meaning, and
leaves idle what a command does at once. -/
theorem commandIsStartThenFinish : Obligations.CommandIsStartThenFinish := by
  intro i s hidle
  cases i with
  | init => rfl
  | pbyte b => simp only [exec, execPbyte, start, finish_enter_absorbByte]
  | pbytes len => simp only [exec, execPbytes, start, finish_enter_absorb]
  | gdig cap =>
    by_cases hcap : capacitySuffices cap
    · simp only [exec, execGdig, start, if_pos hcap, finish_enter_marker]
    · simp only [exec, execGdig, start, if_neg hcap, finish, hidle]

end Sys2Proof.Machine
end

section
/-! What running a command and taking a step can do, said once (spec/00_scope.md R2, R16; spec/20_memory.md R70,
R75; spec/60_exceptions.md R204): an equation per command, the outcomes of a step and of a sending loop, what the
working state keeps. -/

namespace Sys2Proof.Machine

/-! ### The meaning of each command -/

@[simp] theorem exec_init (s : State) : exec .init s = .next (initialState s) := rfl

@[simp] theorem exec_pbyte (b : Byte) (s : State) :
    exec (.pbyte b) s =
      .next (enter .idle (storeByte (used (workingState s)) b (advanceCounter (workingState s) 1))) := rfl

@[simp] theorem exec_pbytes (len : Nat) (s : State) :
    exec (.pbytes len) s =
      .next (absorb len (used (pbytesState len s)) (advanceCounter (pbytesState len s) len)) := rfl

theorem capacitySuffices_iff (cap : Nat) : capacitySuffices cap = true ↔ 4 ≤ cap :=
  decide_eq_true_iff

theorem exec_gdig_effective {cap : Nat} (h : 4 ≤ cap) (s : State) :
    exec (.gdig cap) s = .next (emit allDigestWords (finalPasses (workingState s))) := by
  rw [exec, execGdig, if_pos ((capacitySuffices_iff cap).2 h)]

theorem exec_gdig_ineffective {cap : Nat} (h : ¬ 4 ≤ cap) (s : State) :
    exec (.gdig cap) s = .next s := by
  rw [exec, execGdig, if_neg (mt (capacitySuffices_iff cap).1 h)]

/-! ### The outcomes of a step -/

/-- A step resets, waits for a word, discards a reserved word, runs a command to its end or its first wait, or
carries the command in progress on (R16, R70, R74, R93, R233). -/
theorem step_cases {s t : State} (h : step s = .next t) :
    (s.rst = true ∧ t = resetEvent s) ∨
    (s.rst = false ∧ s.phase = .idle ∧ s.cmd = [] ∧ t = s) ∨
    (s.rst = false ∧ s.phase = .idle ∧ ∃ w rest why,
      s.cmd = w :: rest ∧ decode w = .error why ∧ t = { s with cmd := rest }) ∨
    (s.rst = false ∧ s.phase = .idle ∧ ∃ w rest i,
      s.cmd = w :: rest ∧ decode w = .ok i ∧ exec i { s with cmd := rest } = .next t) ∨
    (s.rst = false ∧ s.phase ≠ .idle ∧ t = finish s) := by
  cases hrst : s.rst with
  | true => simp_all [step]
  | false =>
    by_cases hidle : s.phase = .idle
    · cases hcmd : s.cmd with
      | nil => simp_all [step, cmdPop]
      | cons w rest =>
        cases hdec : decode w with
        | error why => simp_all [step, cmdPop]
        | ok i => simp_all [step, cmdPop]
    · simp_all [step]

/-- The operands of a decoded command fit their fields (R83, R85, R86). -/
theorem wellFormed_of_decode {w : Word} {i : Instr} (h : decode w = .ok i) : i.wellFormed = true := by
  have hfit : (argField w).toNat < 2 ^ 28 := (argField w).isLt
  unfold decode at h
  split_ifs at h <;> cases h
  · rfl
  · rfl
  · exact decide_eq_true hfit
  · exact decide_eq_true hfit

/-! ### The outcomes of the sending loop -/

/-- With enough takes the sending loop sets `FIN` and ends idle; else it leaves `FIN` and waits (R75, R154). -/
theorem emit_outcome (ks : List (Fin 4)) (s : State) :
    (ks.length ≤ s.takes ∧ (emit ks s).fin = true ∧ (emit ks s).phase = .idle) ∨
    (s.takes < ks.length ∧ (emit ks s).fin = s.fin ∧ ∃ k, (emit ks s).phase = .emit k) := by
  by_cases hle : ks.length ≤ s.takes
  · exact .inl ⟨hle, by rw [emit_done hle], by rw [emit_done hle]⟩
  · have hdrop := List.drop_eq_getElem_cons (Nat.lt_of_not_le hle)
    exact .inr ⟨by omega, by rw [emit_wait hdrop], _, by rw [emit_wait hdrop]⟩

/-! ### What the working state keeps -/

@[simp] theorem workingState_fin (s : State) : (workingState s).fin = s.fin := by rw [workingState_eq]
@[simp] theorem workingState_takes (s : State) : (workingState s).takes = s.takes := by
  rw [workingState_eq]
@[simp] theorem pbytesState_fin (len : Nat) (s : State) : (pbytesState len s).fin = s.fin := by
  rw [pbytesState_eq]

end Sys2Proof.Machine
end

section
/-! Who writes `FIN` (spec/10_state.md R33; spec/42_finalize.md R154). -/

namespace Sys2Proof.Machine

/-- An effective GDIG sets `FIN` when its four words are taken, and leaves it while it waits for a take. -/
theorem exec_gdig_fin {cap : Nat} {s t : State} (hcap : 4 ≤ cap) (h : exec (.gdig cap) s = .next t) :
    (4 ≤ s.takes → t.fin = true) ∧ (¬ 4 ≤ s.takes → t.fin = s.fin) := by
  rw [exec_gdig_effective hcap] at h
  injection h with h
  have hout := emit_outcome allDigestWords (finalPasses (workingState s))
  rw [h, finalPasses_takes, finalPasses_fin, workingState_takes, workingState_fin,
    show allDigestWords.length = 4 from rfl] at hout
  obtain ⟨hle, hfin, -⟩ | ⟨hlt, hfin, -⟩ := hout
  · exact ⟨fun _ => hfin, fun hn => absurd hle hn⟩
  · exact ⟨fun hle => absurd hle (Nat.not_le.2 hlt), fun _ => hfin⟩

/-- Settles O37, command by command. -/
theorem finalizedFlagWriters : Obligations.FinalizedFlagWriters := by
  refine ⟨rfl, fun i s t h => ?_⟩
  cases i with
  | init =>
    cases h
    exact ⟨fun _ => rfl, by simp, by simp⟩
  | pbyte b =>
    cases h
    exact ⟨by simp, by simp, by simp⟩
  | pbytes len =>
    cases h
    obtain ⟨-, hfin, -⟩ :=
      absorb_frame len (used (pbytesState len s)) (advanceCounter (pbytesState len s) len)
    exact ⟨by simp, by simp, fun _ _ => by rw [hfin, advanceCounter_fin, pbytesState_fin]⟩
  | gdig cap =>
    by_cases hcap : 4 ≤ cap
    · obtain ⟨hset, hkeep⟩ := exec_gdig_fin hcap h
      exact ⟨by simp, fun _ => hset, fun _ hn => hkeep fun hle => hn ⟨⟨cap, rfl, hcap⟩, hle⟩⟩
    · rw [exec_gdig_ineffective hcap] at h
      cases h
      exact ⟨by simp, by simp [hcap], fun _ _ => rfl⟩

end Sys2Proof.Machine
end

section
/-! The PHASE sequences of spec/10_state.md R32, over both moves of the sequencer. -/

namespace Sys2Proof.Machine

/-- Taking a GDIG in IDLE goes to PADDING exactly if it asks for four words. -/
theorem start_gdig_phase {s : State} (h : s.phase = .idle) (cap : Nat) :
    (start (.gdig cap) s).phase = if 4 ≤ cap then .padding .marker else .idle := by
  by_cases hcap : 4 ≤ cap
  · rw [start, if_pos ((capacitySuffices_iff cap).2 hcap), if_pos hcap, enter_phase]
  · rw [start, if_neg (mt (capacitySuffices_iff cap).1 hcap), if_neg hcap, h]

/-- Settles O50, command by command and phase by phase. -/
theorem phaseSuccessors : Obligations.PhaseSuccessors := by
  refine ⟨fun i s h => ?_, fun i s h => ?_, fun s => ?_⟩
  · cases i with
    | init => rfl
    | pbyte b => rfl
    | pbytes len => rfl
    | gdig cap => exact start_gdig_phase h cap
  · cases i with
    | init => rfl
    | pbyte b => rfl
    | pbytes len => rfl
    | gdig cap =>
      rw [start_gdig_phase h]
      exact apply_ite Phase.name _ _ _
  · cases h : s.phase with
    | idle => simp [tick, h]
    | absorb pos size =>
      cases size with
      | zero => simp [tick, h]
      | succ size =>
        cases hdin : s.din with
        | nil => simp [tick, h, hdin]
        | cons b rest => by_cases hpos : pos = 63#6 <;> simp [tick, h, hdin, hpos]
    | absorbByte pos b => by_cases hpos : pos = 63#6 <;> simp [tick, h, hpos]
    | compress part after =>
      cases part with
      | load => simp [tick, h]
      | round => by_cases hi : s.i = 63#6 <;> simp [tick, h, hi]
      | add => cases after <;> simp [tick, h, After.phase]
    | padding block =>
      cases block with
      | marker => simp [tick, h, needsSecondBlock_iff]
      | fresh => simp [tick, h]
    | emit k =>
      by_cases htakes : s.takes = 0
      · simp [tick, h, htakes]
      · have hready : 0 < s.takes := Nat.pos_of_ne_zero htakes
        by_cases hk : k = 3
        · simp [tick, h, htakes, hk, hready]
        · have hnext : (k + 1).val = k.val + 1 := by omega
          simp [tick, h, htakes, hk, hready, hnext]

end Sys2Proof.Machine
end

section
/-! The invariant of a step (spec/10_state.md R24, R26, R32; spec/20_memory.md R51, R60): a canonical buffer,
`BL[2:0] = 0`, and a phase that can stand between steps. -/

namespace Sys2Proof.Machine

/-- Settles O45: the field `BL[8:3]` as a number. -/
theorem usedIsCounterField : Obligations.UsedIsCounterField := by
  refine fun s => ⟨?_, rfl⟩
  rw [used, usedOf, BitVec.extractLsb'_toNat, Nat.shiftRight_eq_div_pow]

/-- Settles O51: the buffer is empty, the counter 0, the phase IDLE. -/
theorem resetMeetsInvariant : Obligations.ResetMeetsInvariant := ⟨rfl, rfl, rfl⟩

/-! ### Phases that can stand between steps -/

theorem phaseOk_of_idle {s : State} (h : s.phase = .idle) : phaseOk s = true := by rw [phaseOk, h]

theorem phaseOk_of_emit {s : State} {k : Fin 4} (h : s.phase = .emit k) : phaseOk s = true := by
  rw [phaseOk, h]

/-- A waiting PBYTES owes bytes, no more than its length operand can say, and they end where `used` is. -/
theorem phaseOk_absorb_iff {s : State} {pos : Offset} {size : Nat} (h : s.phase = .absorb pos size) :
    phaseOk s = true ↔
      0 < size ∧ size < 2 ^ 28 ∧ (pos.toNat + size) % 64 = (used s).toNat := by
  simp only [phaseOk, h, Bool.and_eq_true, decide_eq_true_eq, and_assoc, Config.lenWidth]

/-! ### The working state -/

theorem workingState_wf {s : State} (h : s.buf.wf = true) : (workingState s).buf.wf = true := by
  cases hfin : s.fin with
  | false => rwa [workingState_open hfin]
  | true =>
    rw [workingState_finalized hfin, consumed_buf]
    exact wf_freeBuffer _

theorem workingState_lowBits {s : State} (h : s.bl.extractLsb' 0 3 = 0#3) :
    (workingState s).bl.extractLsb' 0 3 = 0#3 := by
  cases hfin : s.fin with
  | false => rwa [workingState_open hfin]
  | true =>
    rw [workingState_finalized hfin, consumed_bl]
    exact freeCounter_lowBits _

theorem pbytesState_wf {s : State} (h : s.buf.wf = true) (len : Nat) :
    (pbytesState len s).buf.wf = true := by
  unfold pbytesState
  split
  · exact h
  · exact workingState_wf h

theorem pbytesState_lowBits {s : State} (h : s.bl.extractLsb' 0 3 = 0#3) (len : Nat) :
    (pbytesState len s).bl.extractLsb' 0 3 = 0#3 := by
  unfold pbytesState
  split
  · exact h
  · exact workingState_lowBits h

/-! ### What a step is made of keeps the invariant -/

/-- The sending loop ends idle or with a word on offer. -/
theorem stateInv_emit {s : State} (hwf : s.buf.wf = true) (hlow : s.bl.extractLsb' 0 3 = 0#3)
    (ks : List (Fin 4)) : StateInv (emit ks s) := by
  obtain ⟨-, hbl, hbuf, -⟩ := emit_frame ks s
  refine ⟨hbuf ▸ hwf, hbl ▸ hlow, ?_⟩
  obtain ⟨-, -, hidle⟩ | ⟨-, -, k, hemit⟩ := emit_outcome ks s
  · exact phaseOk_of_idle hidle
  · exact phaseOk_of_emit hemit

/-- The copy loop ends idle or waits for bytes that lead from its offset to `used`. -/
theorem stateInv_absorb {s : State} (hwf : s.buf.wf = true) (hlow : s.bl.extractLsb' 0 3 = 0#3)
    {pos : Offset} {size : Nat} (hsize : size < 2 ^ 28)
    (hpos : (pos.toNat + size) % 64 = (used s).toNat) : StateInv (absorb size pos s) := by
  obtain ⟨hbl, -⟩ := absorb_frame size pos s
  have hphase := absorb_phase size pos s
  refine ⟨absorb_wf hwf size pos, hbl ▸ hlow, ?_⟩
  by_cases hle : size ≤ s.din.length
  · rw [if_pos hle] at hphase
    exact phaseOk_of_idle hphase
  · rw [if_neg hle] at hphase
    have hused : used (absorb size pos s) = used s := congrArg usedOf hbl
    refine (phaseOk_absorb_iff hphase).2 ⟨by omega, by omega, ?_⟩
    rw [hused, ← hpos, BitVec.toNat_add, BitVec.toNat_ofNat]
    omega

/-- A well-formed command keeps the invariant. -/
theorem exec_keeps_stateInv {i : Instr} {s t : State} (hi : i.wellFormed = true) (h : StateInv s)
    (hexec : exec i s = .next t) : StateInv t := by
  have hinv := h
  obtain ⟨hwf, hlow, -⟩ := hinv
  cases i with
  | init =>
    cases hexec
    exact ⟨rfl, rfl, rfl⟩
  | pbyte b =>
    cases hexec
    refine ⟨?_, ?_, rfl⟩
    · rw [enter_buf, storeByte_buf]
      exact Memory.wf_write (workingState_wf hwf) (BitVec.isLt _) b
    · rw [enter_bl, storeByte_bl, advanceCounter_bl, advance_lowBits]
      exact workingState_lowBits hlow
  | pbytes len =>
    cases hexec
    refine stateInv_absorb (s := advanceCounter (pbytesState len s) len) (pbytesState_wf hwf len) ?_
      (of_decide_eq_true hi) ?_
    · rw [advanceCounter_bl, advance_lowBits]
      exact pbytesState_lowBits hlow len
    · rw [used_advanceCounter, BitVec.toNat_add, BitVec.toNat_ofNat]
      omega
  | gdig cap =>
    by_cases hcap : 4 ≤ cap
    · rw [exec_gdig_effective hcap] at hexec
      cases hexec
      refine stateInv_emit (finalPasses_wf (workingState_wf hwf)) ?_ allDigestWords
      rw [finalPasses_bl]
      exact workingState_lowBits hlow
    · rw [exec_gdig_ineffective hcap] at hexec
      cases hexec
      exact h

/-- Carrying the command in progress on keeps the invariant. -/
theorem finish_keeps_stateInv {s : State} (h : StateInv s) : StateInv (finish s) := by
  have hinv := h
  obtain ⟨hwf, hlow, hok⟩ := hinv
  cases hphase : s.phase with
  | idle => simpa only [finish, hphase] using h
  | absorb pos size =>
    obtain ⟨-, hsize, hpos⟩ := (phaseOk_absorb_iff hphase).1 hok
    rw [finish_of_phase hphase, finish_enter_absorb]
    exact stateInv_absorb hwf hlow hsize hpos
  | emit k =>
    rw [finish_of_phase hphase, finish_enter_emit]
    exact stateInv_emit hwf hlow _
  | absorbByte pos b => simp [phaseOk, hphase] at hok
  | compress part after => simp [phaseOk, hphase] at hok
  | padding block => simp [phaseOk, hphase] at hok

/-- Settles O52, by the outcomes of a step. -/
theorem stepKeepsInvariant : Obligations.StepKeepsInvariant := by
  intro s t h hstep
  obtain ⟨-, rfl⟩ | ⟨-, -, -, rfl⟩ | ⟨-, -, w, rest, why, -, -, rfl⟩ |
    ⟨-, -, w, rest, i, -, hdec, hexec⟩ | ⟨-, -, rfl⟩ := step_cases hstep
  · exact ⟨rfl, rfl, rfl⟩
  · exact h
  · exact h
  · exact exec_keeps_stateInv (s := { s with cmd := rest }) (wellFormed_of_decode hdec) h hexec
  · exact finish_keeps_stateInv h

end Sys2Proof.Machine
end

section
/-! The message the block holds (spec/10_state.md R22, R24, R27; spec/41_update.md R128). `Buffered` is what a
message leaves in `H` and `BUF`; the copy loop of an update keeps it byte by byte, while the counter already
stands at the end of the whole update. -/

namespace Sys2Proof.Machine

/-! ### The chaining value of a message that grows -/

/-- Bytes of a block that lie within the message do not depend on what is appended. -/
theorem blockAt_append_left (msg tail : List Byte) {q p : Nat} (h : 64 * q + p < msg.length) :
    blockAt (msg ++ tail) q p = blockAt msg q p :=
  List.getD_append _ _ _ _ h

/-- The byte appended is the next one of the block it falls into. -/
theorem blockAt_snoc_last (msg : List Byte) (b : Byte) :
    blockAt (msg ++ [b]) (msg.length / 64) (msg.length % 64) = b := by
  rw [blockAt, Nat.div_add_mod, List.getD_append_right _ _ _ _ le_rfl, Nat.sub_self]
  rfl

/-- The blocks complete in `msg` chain to the same value whatever is appended. -/
theorem chain_completeBlocks (h : Quad) (msg tail : List Byte) :
    (List.range (msg.length / 64)).foldl
      (fun h q => compressionFunction h (blockAt (msg ++ tail) q)) h = chain h msg := by
  refine List.foldl_ext _ _ _ fun h q hq => compressionFunction_congr h fun p hp => ?_
  have hlt : q < msg.length / 64 := List.mem_range.1 hq
  exact blockAt_append_left msg tail (by omega)

/-- A byte that completes no block leaves the chaining value. -/
theorem chain_snoc_open (h : Quad) (msg : List Byte) (b : Byte) (hn : msg.length % 64 ≠ 63) :
    chain h (msg ++ [b]) = chain h msg := by
  rw [chain, List.length_append, List.length_singleton,
    show (msg.length + 1) / 64 = msg.length / 64 by omega, chain_completeBlocks]

/-- A byte that completes a block chains that block (R22). -/
theorem chain_snoc_full (h : Quad) (msg : List Byte) (b : Byte) (hn : msg.length % 64 = 63) :
    chain h (msg ++ [b]) =
      compressionFunction (chain h msg) (blockAt (msg ++ [b]) (msg.length / 64)) := by
  rw [chain, List.length_append, List.length_singleton,
    show (msg.length + 1) / 64 = msg.length / 64 + 1 by omega, List.range_succ, List.foldl_append,
    chain_completeBlocks, List.foldl_cons, List.foldl_nil]

/-! ### `H` and `BUF` of a message -/

/-- `H` is the chaining value of the complete blocks of `msg` and `BUF`, canonical, starts with the bytes that
follow them (R22, R27). -/
def Buffered (msg : List Byte) (s : State) : Prop :=
  s.buf.wf = true ∧ s.h = chain iv msg ∧
  ∀ p, p < msg.length % 64 → s.buf.read p = blockAt msg (msg.length / 64) p

/-- The block holds a message: it is idle and not finalized, `H` and `BUF` are those of the message and `BL`
counts its bits. -/
theorem holds_iff (msg : List Byte) (s : State) :
    Holds msg s ↔ s.phase = .idle ∧ s.fin = false ∧ s.bl = BitVec.ofNat 64 (8 * msg.length) ∧
      Buffered msg s := by
  constructor
  · rintro ⟨hwf, hidle, hfin, hh, hbl, hread⟩
    exact ⟨hidle, hfin, hbl, hwf, hh, hread⟩
  · rintro ⟨hidle, hfin, hbl, hwf, hh, hread⟩
    exact ⟨hwf, hidle, hfin, hh, hbl, hread⟩

theorem holds_nil {s : State} (hh : s.h = iv) (hbl : s.bl = 0#64) (hbuf : s.buf = [])
    (hfin : s.fin = false) (hidle : s.phase = .idle) : Holds [] s := by
  refine (holds_iff [] s).2 ⟨hidle, hfin, hbl, ?_, ?_, ?_⟩
  · rw [hbuf]; rfl
  · rw [hh, chain_short iv [] (Nat.succ_pos 63)]
  · intro p hp
    exact absurd hp (Nat.not_lt_zero p)

/-- After the next message byte is written, `BUF` holds the block it falls into up to that byte. -/
theorem Buffered.read_write {msg : List Byte} {s : State} (h : Buffered msg s) (b : Byte) {p : Nat}
    (hp : p ≤ msg.length % 64) :
    (s.buf.write (msg.length % 64) b).read p = blockAt (msg ++ [b]) (msg.length / 64) p := by
  obtain ⟨hwf, -, hread⟩ := h
  by_cases heq : p = msg.length % 64
  · subst heq
    rw [Memory.read_write_same hwf, blockAt_snoc_last]
  · rw [Memory.read_write_ne _ _ heq, hread p (by omega), blockAt_append_left _ _ (by omega)]

/-- Storing the next message byte, with the pass it may make due, extends the message by it (R122, R128). -/
theorem Buffered.storeByte_snoc {msg : List Byte} {s : State} (h : Buffered msg s) (b : Byte) :
    Buffered (msg ++ [b]) (storeByte (BitVec.ofNat 6 msg.length) b s) := by
  have hpos : (BitVec.ofNat 6 msg.length).toNat = msg.length % 64 := BitVec.toNat_ofNat _ _
  have hread := fun p => h.read_write b (p := p)
  obtain ⟨hwf, hh, -⟩ := h
  refine ⟨?_, ?_, fun p hp => ?_⟩
  · rw [storeByte_buf]
    exact Memory.wf_write hwf (BitVec.isLt _) b
  · rw [storeByte_h, hh, hpos]
    by_cases hfull : msg.length % 64 = 63
    · rw [if_pos (BitVec.eq_of_toNat_eq (y := 63#6) (hpos.trans hfull)), chain_snoc_full _ _ _ hfull]
      exact compressionFunction_congr _ fun p hp => hread p (by omega)
    · rw [if_neg fun he => hfull (hpos.symm.trans (congrArg BitVec.toNat he)),
        chain_snoc_open _ _ _ hfull]
  · rw [List.length_append, List.length_singleton] at hp ⊢
    rw [storeByte_buf, hpos, hread p (by omega), show (msg.length + 1) / 64 = msg.length / 64 by omega]

/-- The copy loop extends the message by the bytes it copies (R128). -/
theorem Buffered.absorb_append {msg data rest : List Byte} {s : State} (h : Buffered msg s)
    (hdin : s.din = data ++ rest) :
    Buffered (msg ++ data) (absorb data.length (BitVec.ofNat 6 msg.length) s) := by
  induction data generalizing msg s with
  | nil => rwa [List.append_nil]
  | cons b data ih =>
    have hnext : BitVec.ofNat 6 msg.length + 1 = BitVec.ofNat 6 (msg ++ [b]).length := by
      rw [List.length_append, BitVec.ofNat_add]
      rfl
    have hpop : Buffered msg (dinPop s (data ++ rest)) := h
    rw [List.length_cons, absorb_byte hdin, hnext, List.append_cons]
    exact ih (hpop.storeByte_snoc b) (storeByte_din _ _ _)

/-! ### The counter of a message -/

theorem usedOf_bitCount (n : Nat) : usedOf (BitVec.ofNat 64 (8 * n)) = BitVec.ofNat 6 n := by
  have h := usedOf_advance 0#64 n
  rwa [advance, BitVec.zero_add, show usedOf 0#64 = 0#6 from rfl, BitVec.zero_add] at h

theorem advance_bitCount (n k : Nat) :
    advance (BitVec.ofNat 64 (8 * n)) k = BitVec.ofNat 64 (8 * (n + k)) := by
  rw [advance, ← BitVec.ofNat_add, Nat.mul_add]

/-! ### The updates -/

/-- PBYTE `b` appends `b` to the message the block holds (R126). -/
theorem Holds.pbyte_snoc {msg : List Byte} {s : State} (h : Holds msg s) (b : Byte) :
    ∃ t, exec (.pbyte b) s = .next t ∧ Holds (msg ++ [b]) t := by
  obtain ⟨-, hfin, hbl, hbuf⟩ := (holds_iff msg s).1 h
  have hbuf' : Buffered msg (advanceCounter s 1) := hbuf
  have hused : used s = BitVec.ofNat 6 msg.length := by rw [used, hbl, usedOf_bitCount]
  rw [exec_pbyte, workingState_open hfin, hused]
  refine ⟨_, rfl, (holds_iff _ _).2 ⟨rfl, ?_, ?_, hbuf'.storeByte_snoc b⟩⟩
  · rw [enter_fin, storeByte_fin, advanceCounter_fin, hfin]
  · rw [enter_bl, storeByte_bl, advanceCounter_bl, hbl, advance_bitCount, List.length_append,
      List.length_singleton]

/-- PBYTES appends its bytes to the message the block holds, and takes no other from DIN (R125, R71). -/
theorem Holds.pbytes_append {msg data rest : List Byte} {s : State} (h : Holds msg s)
    (hdin : s.din = data ++ rest) :
    ∃ t, exec (.pbytes data.length) s = .next t ∧ Holds (msg ++ data) t ∧ t.din = rest := by
  obtain ⟨-, hfin, hbl, hbuf⟩ := (holds_iff msg s).1 h
  have hbuf' : Buffered msg (advanceCounter s data.length) := hbuf
  have hused : used s = BitVec.ofNat 6 msg.length := by rw [used, hbl, usedOf_bitCount]
  obtain ⟨hbl', hfin', -⟩ := absorb_frame data.length (used s) (advanceCounter s data.length)
  rw [exec_pbytes, pbytesState_open _ hfin]
  refine ⟨_, rfl, (holds_iff _ _).2 ⟨?_, ?_, ?_, ?_⟩, ?_⟩
  · rw [absorb_phase, if_pos]
    rw [advanceCounter_din, hdin, List.length_append]
    exact Nat.le_add_right _ _
  · rw [hfin', advanceCounter_fin, hfin]
  · rw [hbl', advanceCounter_bl, hbl, advance_bitCount, List.length_append]
  · rw [hused]
    exact hbuf'.absorb_append hdin
  · rw [absorb_din, advanceCounter_din, hdin, List.drop_left]

/-- Settles O54: both updates extend what the block holds, byte by byte. -/
theorem updatesExtendMessage : Obligations.UpdatesExtendMessage := fun _ _ h =>
  ⟨h.pbyte_snoc, fun _ _ => h.pbytes_append⟩

/-- Settles O53: reset and INIT write the values of the empty message. -/
theorem resetAndInitHoldEmptyMessage : Obligations.ResetAndInitHoldEmptyMessage :=
  ⟨holds_nil rfl rfl rfl rfl rfl, fun s => ⟨initialState s, rfl, holds_nil rfl rfl rfl rfl rfl⟩⟩

end Sys2Proof.Machine
end

section
/-! What commands and steps do at the ports (spec/20_memory.md R69 to R75): which of them take words or bytes, which
send, and how a command waits for the host. -/

namespace Sys2Proof.Machine

/-! ### The ports in the parts of a command -/

@[simp] theorem workingState_din (s : State) : (workingState s).din = s.din := by rw [workingState_eq]
@[simp] theorem workingState_dout (s : State) : (workingState s).dout = s.dout := by rw [workingState_eq]
@[simp] theorem workingState_rst (s : State) : (workingState s).rst = s.rst := by rw [workingState_eq]
@[simp] theorem pbytesState_cmd (len : Nat) (s : State) : (pbytesState len s).cmd = s.cmd := by
  rw [pbytesState_eq]
@[simp] theorem pbytesState_din (len : Nat) (s : State) : (pbytesState len s).din = s.din := by
  rw [pbytesState_eq]
@[simp] theorem pbytesState_takes (len : Nat) (s : State) : (pbytesState len s).takes = s.takes := by
  rw [pbytesState_eq]
@[simp] theorem pbytesState_dout (len : Nat) (s : State) : (pbytesState len s).dout = s.dout := by
  rw [pbytesState_eq]
@[simp] theorem pbytesState_rst (len : Nat) (s : State) : (pbytesState len s).rst = s.rst := by
  rw [pbytesState_eq]

@[simp] theorem padFresh_cmd (s : State) : (padFresh s).cmd = s.cmd := by rw [padFresh_eq]
@[simp] theorem padFresh_din (s : State) : (padFresh s).din = s.din := by rw [padFresh_eq]

@[simp] theorem emit_h (ks : List (Fin 4)) (s : State) : (emit ks s).h = s.h := by
  obtain ⟨hh, -⟩ := emit_frame ks s
  exact hh

@[simp] theorem emit_cmd (ks : List (Fin 4)) (s : State) : (emit ks s).cmd = s.cmd := by
  obtain ⟨-, -, -, -, -, -, hcmd, -⟩ := emit_frame ks s
  exact hcmd

@[simp] theorem emit_din (ks : List (Fin 4)) (s : State) : (emit ks s).din = s.din := by
  obtain ⟨-, -, -, -, -, -, -, hdin, -⟩ := emit_frame ks s
  exact hdin

@[simp] theorem absorb_cmd (size : Nat) (pos : Offset) (s : State) :
    (absorb size pos s).cmd = s.cmd := by
  obtain ⟨-, -, hcmd, -⟩ := absorb_frame size pos s
  exact hcmd

@[simp] theorem finishPass_cmd (part : PassPart) (s : State) : (finishPass part s).cmd = s.cmd := by
  cases part with
  | load => exact compressBlock_cmd s
  | round => rw [finishPass, runRounds_frame, chainingAdd_cmd]
  | add => rfl

@[simp] theorem finishPass_din (part : PassPart) (s : State) : (finishPass part s).din = s.din := by
  cases part with
  | load => exact compressBlock_din s
  | round => rw [finishPass, runRounds_frame, chainingAdd_din]
  | add => rfl

/-! ### A step of a busy block -/

/-- A step of a busy block carries its command on (R70). -/
theorem step_busy {s : State} (hrst : s.rst = false) (hbusy : s.phase ≠ .idle) :
    step s = .next (finish s) := by
  simp [step, hrst, hbusy]

/-- The rest of a command takes no word (R70). -/
theorem finish_cmd (s : State) : (finish s).cmd = s.cmd := by
  cases hphase : s.phase with
  | idle => simp only [finish, hphase]
  | absorb pos size => simp only [finish, hphase, absorb_cmd]
  | absorbByte pos b => simp only [finish, hphase, enter_cmd, storeByte_cmd]
  | compress part after => cases after <;> simp [finish, hphase, finishAfter]
  | padding block => cases block <;> simp [finish, hphase]
  | emit k => simp only [finish, hphase, emit_cmd]

/-- Settles O10, by what the rest of each command leaves of the CMD port. -/
theorem busyStepCarriesCommandOn : Obligations.BusyStepCarriesCommandOn := fun s hrst hbusy =>
  ⟨step_busy hrst hbusy, finish_cmd s⟩

/-- Settles O5: the word at the head of CMD is taken and decodes to the command that runs. -/
theorem stepRunsDecodedCommand : Obligations.StepRunsDecodedCommand := by
  intro s w rest i hrst hidle hcmd hdec
  have htaken : cmdPop s = .command i { s with cmd := rest } := by simp only [cmdPop, hcmd, hdec]
  simp [step, hrst, hidle, htaken]

/-- Settles O11, action by action. -/
theorem hostActionsTouchPortsOnly : Obligations.HostActionsTouchPortsOnly := fun _ =>
  ⟨fun _ => rfl, fun _ => rfl, rfl, rfl⟩

/-! ### Who consumes bytes -/

/-- The bytes a command in a phase still takes from DIN: those of an unfinished PBYTES (R71). -/
def Phase.owed : Phase → Nat
  | .absorb _ size => size
  | .compress _ (.absorb size) => size
  | _ => 0

/-- Only an unfinished PBYTES owes bytes, in ABSORB or in a pass that goes back to ABSORB. -/
theorem Phase.owed_cases {p : Phase} (h : p.owed ≠ 0) :
    (∃ pos, p = .absorb pos p.owed) ∨ ∃ part, p = .compress part (.absorb p.owed) := by
  cases p with
  | absorb pos size => exact .inl ⟨pos, rfl⟩
  | compress part after =>
    cases after with
    | absorb size => exact .inr ⟨part, rfl⟩
    | padding => exact absurd rfl h
    | emit => exact absurd rfl h
  | idle => exact absurd rfl h
  | absorbByte pos b => exact absurd rfl h
  | padding block => exact absurd rfl h
  | emit k => exact absurd rfl h

/-- The rest of a command consumes exactly the bytes it owes, as far as they are on offer (R71, R72). -/
theorem finish_din (s : State) : (finish s).din = s.din.drop s.phase.owed := by
  cases hphase : s.phase with
  | idle => simp [finish, hphase, Phase.owed]
  | absorb pos size => simp only [finish, hphase, Phase.owed, absorb_din]
  | absorbByte pos b => simp [finish, hphase, Phase.owed]
  | compress part after => cases after <;> simp [finish, hphase, finishAfter, Phase.owed, absorb_din]
  | padding block => cases block <;> simp [finish, hphase, Phase.owed]
  | emit k => simp [finish, hphase, Phase.owed]

/-- INIT, PBYTE and GDIG consume no byte (R71). -/
theorem exec_din {i : Instr} {s t : State} (hi : ∀ len, i ≠ .pbytes len) (h : exec i s = .next t) :
    t.din = s.din := by
  cases i with
  | init => cases h; rfl
  | pbyte b => cases h; simp
  | pbytes len => exact absurd rfl (hi len)
  | gdig cap =>
    by_cases hcap : 4 ≤ cap
    · rw [exec_gdig_effective hcap] at h
      cases h
      simp
    · rw [exec_gdig_ineffective hcap] at h
      cases h
      rfl

/-- PBYTES `len` consumes `len` bytes, as far as they are on offer (R71, R72). -/
theorem exec_pbytes_din {len : Nat} {s t : State} (h : exec (.pbytes len) s = .next t) :
    t.din = s.din.drop len := by
  cases h
  rw [absorb_din, advanceCounter_din, pbytesState_din]

/-- Where a PBYTES ends: idle if its bytes were on offer, else waiting for those that are missing (R72). -/
theorem exec_pbytes_phase {len : Nat} {s t : State} (h : exec (.pbytes len) s = .next t) :
    t.phase = if len ≤ s.din.length then .idle
      else .absorb (used (pbytesState len s) + BitVec.ofNat 6 s.din.length) (len - s.din.length) := by
  cases h
  rw [absorb_phase, advanceCounter_din, pbytesState_din]

/-- Settles O19, by what the copy loop takes and leaves. -/
theorem pbytesConsumesItsBytes : Obligations.PbytesConsumesItsBytes := by
  refine ⟨fun len s => ?_, fun i s t hi h => exec_din hi h⟩
  obtain ⟨-, hfin, hcmd, htakes, hdout, hrst, -⟩ :=
    absorb_frame len (used (pbytesState len s)) (advanceCounter (pbytesState len s) len)
  have hexec := exec_pbytes len s
  refine ⟨_, hexec, exec_pbytes_din hexec, ?_, by simp [hfin], by simp, by simp [htakes], by simp [hdout],
    by simp [hrst]⟩
  rw [exec_pbytes_phase hexec]
  split <;> simp_all

/-- Settles O20, by the outcomes of a step. -/
theorem onlyPbytesConsumesBytes : Obligations.OnlyPbytesConsumesBytes := by
  intro s t hstep hne
  obtain ⟨-, rfl⟩ | ⟨-, -, -, rfl⟩ | ⟨-, -, w, rest, why, -, -, rfl⟩ |
    ⟨-, hidle, w, rest, i, hcmd, hdec, hexec⟩ | ⟨-, -, rfl⟩ := step_cases hstep
  · exact absurd rfl hne
  · exact absurd rfl hne
  · exact absurd rfl hne
  · by_cases hi : ∃ len, i = .pbytes len
    · obtain ⟨len, rfl⟩ := hi
      exact ⟨len, exec_pbytes_din (s := { s with cmd := rest }) hexec, .inr (.inr ⟨hidle, w, rest, hcmd, hdec⟩)⟩
    · exact absurd (exec_din (s := { s with cmd := rest }) (fun len he => hi ⟨len, he⟩) hexec) hne
  · have howed : s.phase.owed ≠ 0 := fun h0 => hne (by rw [finish_din, h0, List.drop_zero])
    refine ⟨s.phase.owed, finish_din s, ?_⟩
    obtain habsorb | hpass := Phase.owed_cases howed
    · exact .inl habsorb
    · exact .inr (.inl hpass)

/-! ### Waiting for bytes -/

/-- A PBYTES that waits for a byte stays as it is while none comes (R72, R205). -/
theorem step_waiting_for_byte {s : State} {pos : Offset} {size : Nat} (hrst : s.rst = false)
    (hphase : s.phase = .absorb pos size) (hsize : size ≠ 0) (hdin : s.din = []) : step s = .next s := by
  obtain ⟨size, rfl⟩ := Nat.exists_eq_succ_of_ne_zero hsize
  rw [step_busy hrst (by simp [hphase]), finish_of_phase hphase, finish_enter_absorb,
    absorb_wait hdin, ← hphase, enter_self]

/-- Settles O23, by where the copy loop ends when it runs short. -/
theorem pbytesWaitsForData : Obligations.PbytesWaitsForData := by
  intro len s hshort hrst
  obtain ⟨hbl, -, -, -, -, hrst', -⟩ :=
    absorb_frame len (used (pbytesState len s)) (advanceCounter (pbytesState len s) len)
  have hexec := exec_pbytes len s
  have hphase := exec_pbytes_phase hexec
  rw [if_neg (by omega)] at hphase
  have hdin := (exec_pbytes_din hexec).trans (List.drop_of_length_le hshort.le)
  refine ⟨_, _, hexec, hdin, hphase, fun hfin => ⟨?_, ?_⟩, fun words takes => ?_⟩
  · rw [pbytesState_open len hfin]
  · rw [hbl, pbytesState_open len hfin]
    rfl
  · refine step_waiting_for_byte ?_ hphase (by omega) hdin
    simpa [hrst] using hrst'

/-! ### Who sends -/

theorem digestWords_take (h : Quad) (n : Nat) :
    (allDigestWords.take n).map (digestWord h) = (digestWords h).take n := by
  rw [List.map_take]
  rfl

/-- An effective GDIG sends the digest words of its final `H`, as many as the host takes (R73, R150). -/
theorem exec_gdig_dout {cap : Nat} (hcap : 4 ≤ cap) {s t : State} (h : exec (.gdig cap) s = .next t) :
    t.dout = s.dout ++ (digestWords t.h).take s.takes := by
  rw [exec_gdig_effective hcap] at h
  cases h
  rw [emit_dout, emit_h, digestWords_take]
  simp

/-- No other command sends (R73). -/
theorem exec_dout {i : Instr} {s t : State} (hi : ¬ ∃ cap, i = .gdig cap ∧ 4 ≤ cap)
    (h : exec i s = .next t) : t.dout = s.dout := by
  cases i with
  | init => cases h; rfl
  | pbyte b => cases h; simp
  | pbytes len =>
    cases h
    obtain ⟨-, -, -, -, hdout, -⟩ :=
      absorb_frame len (used (pbytesState len s)) (advanceCounter (pbytesState len s) len)
    simp [hdout]
  | gdig cap =>
    rw [exec_gdig_ineffective fun hcap => hi ⟨cap, rfl, hcap⟩] at h
    cases h
    rfl

/-- Settles O36, command by command. -/
theorem onlyGdigSends : Obligations.OnlyGdigSends := by
  refine fun i s t h => ⟨?_, fun hi => exec_dout hi h⟩
  rintro ⟨cap, rfl, hcap⟩
  exact exec_gdig_dout hcap h

/-! ### Waiting for takes -/

/-- A GDIG that waits for a take stays as it is while none comes (R75, R205). -/
theorem step_waiting_for_take {s : State} {k : Fin 4} (hrst : s.rst = false) (hphase : s.phase = .emit k)
    (htakes : s.takes = 0) : step s = .next s := by
  rw [step_busy hrst (by simp [hphase]), finish_of_phase hphase, finish_enter_emit, allDigestWords_drop,
    emit, if_pos htakes, ← hphase, enter_self]

/-- With `k` takes ready, fewer than four, the first `k` words go out and word `k` stays on offer (R75). -/
theorem emit_all_wait {s : State} {k : Fin 4} (h : s.takes = k.val) :
    emit allDigestWords s =
      { s with dout := s.dout ++ (digestWords s.h).take k.val, takes := 0, phase := .emit k } := by
  rw [emit_wait (k := k) (rest := allDigestWords.drop (k.val + 1)) (by rw [h, allDigestWords_drop]), h,
    digestWords_take]

/-- Settles O33, by where the sending loop ends when takes are missing. -/
theorem gdigWaitsForTakes : Obligations.GdigWaitsForTakes := by
  intro cap s k hcap htakes hrst
  have hexec := exec_gdig_effective hcap s
  have htakes' : (finalPasses (workingState s)).takes = k.val := by simp [htakes]
  rw [emit_all_wait htakes'] at hexec
  refine ⟨_, hexec, rfl, rfl, by simp, by simp, fun words bytes => ?_⟩
  exact step_waiting_for_take (by simp [hrst]) rfl rfl

/-- The state with `n` takes ready at the DOUT port (R75). -/
def withTakes (n : Nat) (s : State) : State := { s with takes := n }

/-- Takes that come one after another send what takes that are ready together send. -/
theorem emit_withTakes_add {ks : List (Fin 4)} {a : Nat} (h : a ≤ ks.length) (b : Nat) (s : State) :
    emit ks (withTakes (a + b) s) =
      emit (ks.drop a) (withTakes b { s with dout := s.dout ++ (ks.take a).map (digestWord s.h) }) := by
  induction a generalizing ks s with
  | zero => simp
  | succ a ih =>
    obtain _ | ⟨k, rest⟩ := ks
    · simp at h
    · have hready : (withTakes (a + 1 + b) s).takes ≠ 0 := by simp only [withTakes]; omega
      have hpush : doutPush (withTakes (a + 1 + b) s) (digestWord s.h k) =
          withTakes (a + b) { s with dout := s.dout ++ [digestWord s.h k] } := by
        rw [doutPush, withTakes, withTakes, show a + 1 + b - 1 = a + b by omega]
      rw [emit, if_neg hready, show (withTakes (a + 1 + b) s).h = s.h from rfl, hpush,
        ih (by simpa using h)]
      simp

/-- A sending loop that waited after `a` words and is then given `b` takes ends as with `a + b` takes ready
from the start (R75). -/
theorem finish_emit_late {a : Nat} (ha : a < 4) (b : Nat) (s : State) :
    finish (withTakes b (emit allDigestWords (withTakes a s))) =
      emit allDigestWords (withTakes (a + b) s) := by
  rw [emit_all_wait (s := withTakes a s) (k := ⟨a, ha⟩) rfl, emit_withTakes_add ha.le,
    digestWords_take]
  exact finish_enter_emit ⟨a, ha⟩ (withTakes b { s with dout := s.dout ++ (digestWords s.h).take a })

theorem compressBlock_withTakes (n : Nat) (s : State) :
    compressBlock (withTakes n s) = withTakes n (compressBlock s) := by
  rw [compressBlock_eq, compressBlock_eq]
  rfl

theorem padMarker_withTakes (n : Nat) (s : State) :
    padMarker (withTakes n s) = withTakes n (padMarker s) := by
  have hbuf : (padMarker (withTakes n s)).buf = (padMarker s).buf := by
    rw [padMarker_buf, padMarker_buf]
    rfl
  rw [padMarker_eq, hbuf, padMarker_eq s]
  rfl

theorem padFresh_withTakes (n : Nat) (s : State) :
    padFresh (withTakes n s) = withTakes n (padFresh s) := by
  have hbuf : (padFresh (withTakes n s)).buf = (padFresh s).buf := by
    rw [padFresh_buf, padFresh_buf]
    rfl
  rw [padFresh_eq, hbuf, padFresh_eq s]
  rfl

/-- Padding and its passes do not look at the takes. -/
theorem finalPasses_withTakes (n : Nat) (s : State) :
    finalPasses (withTakes n s) = withTakes n (finalPasses s) := by
  unfold finalPasses
  rw [show used (withTakes n s) = used s from rfl]
  split
  · rw [padMarker_withTakes, compressBlock_withTakes, padFresh_withTakes, compressBlock_withTakes]
  · rw [padMarker_withTakes, compressBlock_withTakes]

/-- An effective GDIG looks at the takes when it sends, and not before. -/
theorem exec_gdig_withTakes {cap : Nat} (hcap : 4 ≤ cap) (n : Nat) (s : State) :
    exec (.gdig cap) (withTakes n s) =
      .next (emit allDigestWords (withTakes n (finalPasses (workingState s)))) := by
  rw [exec_gdig_effective hcap, ← finalPasses_withTakes]
  exact congrArg (fun s => Host.Outcome.next (emit allDigestWords (finalPasses s)))
    (workingState_withTakes s n)

/-- Settles O34: the sending loop, which alone looks at the takes, resumes where it stood. -/
theorem lateTakesEndAlike : Obligations.LateTakesEndAlike := by
  intro cap a b s t hcap ha hexec
  have hsent := exec_gdig_withTakes hcap a s
  obtain rfl : t = _ := Host.Outcome.next.inj (hexec.symm.trans hsent)
  exact (exec_gdig_withTakes hcap (a + b) s).trans (congrArg _ (finish_emit_late ha b _).symm)

end Sys2Proof.Machine
end

section
/-! Updates cut into parts (spec/20_memory.md R66; spec/41_update.md R126, R130, R132): the bytes of one PBYTES
given as two PBYTES, as one PBYTE each, or after a wait. Each is the copy loop, cut where the parts meet. -/

namespace Sys2Proof.Machine

/-! ### A PBYTES on the state it finds -/

/-- With `FIN = 0` a PBYTES works on the state as it is. -/
theorem exec_pbytes_open {s : State} (h : s.fin = false) (len : Nat) :
    exec (.pbytes len) s = .next (absorb len (used s) (advanceCounter s len)) := by
  rw [exec_pbytes, pbytesState_open len h]

/-- With no byte to copy an idle block stays as it is, finalized or not (R127). -/
theorem exec_pbytes_zero {s : State} (h : s.phase = .idle) : exec (.pbytes 0) s = .next s := by
  rw [exec_pbytes, pbytesState, if_pos rfl, absorb_zero, advanceCounter, advance_zero, ← h]
  rfl

/-! ### Two PBYTES -/

/-- Settles O25: the second copy loop starts at the offset where the first one ends, and neither reads the
counter that the other's counter step moves. -/
theorem chunkingInvariance : Obligations.ChunkingInvariance := by
  intro m n s hfin hlen
  obtain ⟨hbl, hfin', -⟩ := absorb_frame m (used s) (advanceCounter s m)
  have hopen : (absorb m (used s) (advanceCounter s m)).fin = false := hfin'.trans hfin
  have hused : used (absorb m (used s) (advanceCounter s m)) = used s + BitVec.ofNat 6 m :=
    (congrArg usedOf hbl).trans (used_advanceCounter s m)
  have hcounter : advanceCounter (advanceCounter s m) n = advanceCounter s (m + n) :=
    congrArg (fun bl => { s with bl }) (advance_advance s.bl m n)
  have hoffer : m ≤ (advanceCounter s (m + n)).din.length := (Nat.le_add_right m n).trans hlen
  refine ⟨_, exec_pbytes_open hfin m, ?_⟩
  rw [exec_pbytes_open hopen, exec_pbytes_open hfin, hused, ← absorb_advance, hcounter,
    absorb_split m n _ _ hoffer]

/-! ### One PBYTE per byte -/

/-- PBYTE `b` does what PBYTES 1 does with `b` next on DIN (R126), and ends idle with `FIN` as it was. -/
theorem exec_pbyte_as_pbytes (b : Byte) {s : State} (h : s.fin = false) :
    ∃ t, exec (.pbyte b) s = .next t ∧ t.phase = .idle ∧ t.fin = false ∧ t.din = s.din ∧
      ∀ d, exec (.pbytes 1) { s with din := b :: d } = .next { t with din := d } := by
  refine ⟨_, exec_pbyte b s, rfl, ?_, ?_, fun d => ?_⟩
  · simp [h]
  · simp [workingState_open h]
  · have hd : (advanceCounter { s with din := b :: d } 1).din = b :: d := rfl
    rw [exec_pbytes_open (s := { s with din := b :: d }) h, absorb_byte hd, absorb_zero, workingState_open h]
    exact congrArg (fun t => Host.Outcome.next (enter .idle t))
      (storeByte_withDin (used s) b d (advanceCounter s 1))

/-- One PBYTE per byte is one PBYTES with the bytes in front of what is on DIN. -/
theorem execAll_pbyte (data : List Byte) {s : State} (hfin : s.fin = false) (hidle : s.phase = .idle) :
    execAll (data.map Instr.pbyte) s = exec (.pbytes data.length) { s with din := data ++ s.din } := by
  induction data generalizing s with
  | nil => exact (exec_pbytes_zero hidle).symm
  | cons b data ih =>
    obtain ⟨t, hbyte, hidle', hfin', hdin, hone⟩ := exec_pbyte_as_pbytes b hfin
    obtain ⟨u, hfirst, hsplit⟩ := chunkingInvariance 1 data.length
      { s with din := b :: (data ++ s.din) } hfin (by simp; omega)
    have hu : u = { t with din := data ++ t.din } := by
      rw [hone, ← hdin] at hfirst
      injection hfirst with hfirst
      exact hfirst.symm
    calc execAll ((b :: data).map Instr.pbyte) s
        = execAll (data.map Instr.pbyte) t := by rw [List.map_cons, execAll, hbyte]
      _ = exec (.pbytes data.length) u := by rw [ih hfin' hidle', hu]
      _ = exec (.pbytes (b :: data).length) { s with din := (b :: data) ++ s.din } := by
        rw [hsplit, List.length_cons, Nat.add_comm, List.cons_append]

/-- Settles O26, by induction over the data: the first PBYTE is a PBYTES 1, and chunking joins it to the rest. -/
theorem byteByByteEquivalence : Obligations.ByteByByteEquivalence := by
  intro data rest s hfin hidle hdin
  rw [execAll_pbyte (s := { s with din := rest }) data hfin hidle, ← hdin]

/-! ### Bytes that come late -/

/-- A copy loop that ran short and is then given `y` ends as with `y` on offer from the start (R72, R130). -/
theorem finish_absorb_late {x : List Byte} {size : Nat} (h : x.length < size) (y : List Byte)
    (pos : Offset) (s : State) :
    finish { absorb size pos { s with din := x } with din := y } =
      absorb size pos { s with din := x ++ y } := by
  obtain ⟨size, rfl⟩ := Nat.exists_eq_succ_of_ne_zero (Nat.ne_zero_of_lt h)
  induction x generalizing size pos s with
  | nil =>
    rw [absorb_wait rfl]
    exact finish_enter_absorb pos (size + 1) { s with din := y }
  | cons b x ih =>
    obtain ⟨size, rfl⟩ := Nat.exists_eq_succ_of_ne_zero (n := size) (by simp at h; omega)
    have hpop : ∀ d d' : List Byte, storeByte pos b (dinPop { s with din := d } d') =
        { storeByte pos b s with din := d' } := fun _ d' => storeByte_withDin pos b d' s
    rw [absorb_byte (s := { s with din := b :: x }) rfl, absorb_byte (s := { s with din := b :: x ++ y }) rfl,
      hpop, hpop]
    exact ih _ _ size (by simpa using h)

/-- Settles O24: the counter step and the consumed state do not look at DIN. -/
theorem lateBytesEndAlike : Obligations.LateBytesEndAlike := by
  intro len x y s t hlen hexec
  rw [exec_pbytes, pbytesState_withDin] at hexec
  injection hexec with hexec
  rw [exec_pbytes, pbytesState_withDin, ← hexec]
  exact congrArg _ (finish_absorb_late hlen y _ (advanceCounter (pbytesState len s) len)).symm

end Sys2Proof.Machine
end

section
/-! Little-endian words of the buffer: the schedule a pass loads (spec/20_memory.md R56) and the length field in it
(spec/20_memory.md R57; spec/42_finalize.md R146). -/

namespace Sys2Proof.Machine

/-- A schedule word is its four bytes, the one at the lowest offset least significant (R56). -/
theorem scheduleWord_toNat (byte : Nat → Byte) (j : Nat) :
    (scheduleWord byte j).toNat =
      (byte (4 * j)).toNat + (byte (4 * j + 1)).toNat * 2 ^ 8 + (byte (4 * j + 2)).toNat * 2 ^ 16 +
        (byte (4 * j + 3)).toNat * 2 ^ 24 := by
  have h0 := (byte (4 * j)).isLt
  have h1 := (byte (4 * j + 1)).isLt
  have h2 := (byte (4 * j + 2)).isLt
  have h3 := (byte (4 * j + 3)).isLt
  simp only [scheduleWord, leValue, BitVec.toNat_ofNat, Nat.add_assoc, Nat.reduceAdd]
  omega

/-- Settles O42: the schedule is loaded word by word, and a pass leaves the buffer. -/
theorem scheduleLittleEndian : Obligations.ScheduleLittleEndian := by
  intro s j
  refine ⟨?_, compressBlock_buf s⟩
  rw [compressBlock_m, schedule_get, scheduleWord_toNat]

/-- Four consecutive bytes of the counter make the 32 bits of it that start at the lowest (R57). -/
theorem scheduleWord_counter {byte : Nat → Byte} {j : Nat} {bl : Counter} {lo : Nat}
    (h : ∀ t, t < 4 → byte (4 * j + t) = bl.extractLsb' (lo + 8 * t) 8) :
    scheduleWord byte j = bl.extractLsb' lo 32 := by
  have hbyte : ∀ t, t < 4 → (byte (4 * j + t)).toNat = bl.toNat / 2 ^ lo / 2 ^ (8 * t) % 2 ^ 8 := by
    intro t ht
    rw [h t ht, BitVec.extractLsb'_toNat, Nat.shiftRight_eq_div_pow, Nat.pow_add, Nat.div_div_eq_div_mul]
  have h0 := hbyte 0 (by omega)
  have h1 := hbyte 1 (by omega)
  have h2 := hbyte 2 (by omega)
  have h3 := hbyte 3 (by omega)
  apply BitVec.eq_of_toNat_eq
  rw [scheduleWord_toNat, BitVec.extractLsb'_toNat, Nat.shiftRight_eq_div_pow]
  generalize bl.toNat / 2 ^ lo = x at h0 h1 h2 h3 ⊢
  simp only [Nat.add_zero] at h0
  omega

/-- Settles O43, by the bytes of the length field; the words of the schedule are made of them. -/
theorem lengthFieldBytes : Obligations.LengthFieldBytes := by
  intro s hwf
  have hread := Memory.read_lengthField hwf s.bl
  have hfield : ∀ t, t < 8 → (writeLength s).buf.read (56 + t) = s.bl.extractLsb' (8 * t) 8 := by
    intro t ht
    rw [writeLength_buf, hread, if_pos (by omega), Nat.add_sub_cancel_left]
  refine ⟨hfield, fun p hp => ?_, ?_, ?_⟩
  · rw [writeLength_buf, hread, if_neg (by omega)]
  · refine (schedule_get _ 14).trans (scheduleWord_counter fun t ht => ?_)
    rw [Nat.zero_add]
    exact hfield t (by omega)
  · refine (schedule_get _ 15).trans (scheduleWord_counter fun t ht => ?_)
    rw [show 32 + 8 * t = 8 * (4 + t) by omega, ← hfield (4 + t) (by omega), ← Nat.add_assoc]
    rfl

end Sys2Proof.Machine
end

section
/-! Decoding and encoding are inverse (spec/30_encoding.md R81 to R83, R87 to R92): a word decodes to a command
exactly if its opcode and argument are the word's two fields. And what a reserved word and a capacity above four do
(R86, R93). -/

namespace Sys2Proof.Machine

open Sys2Proof.Laws.OpcodeField (opcode argument)

/-! ### The fields of a command's word -/

/-- The opcode and the argument of a well-formed command stand in the fields of its word (R81). -/
theorem fields_encode (i : Instr) : Laws.OpcodeField.Statement i := by
  cases i with
  | init => exact Laws.OpcodeField.init
  | pbyte b => exact Laws.OpcodeField.pbyte b
  | pbytes len => exact Laws.OpcodeField.pbytes len
  | gdig cap => exact Laws.OpcodeField.gdig cap

theorem encode_eq_commandWord (i : Instr) : encode i = commandWord (opcode i) (argument i) := by
  cases i <;> rfl

/-- A word is made of its two fields (R81). -/
theorem commandWord_fields (w : Word) : commandWord (opField w).toNat (argField w).toNat = w := by
  rw [commandWord, show (2 : Nat) ^ 28 = 268435456 by norm_num, ← word_fields, BitVec.ofNat_toNat,
    BitVec.setWidth_eq]

theorem argHigh_eq_zero_iff (w : Word) : argHigh w = 0#20 ↔ (argField w).toNat < 256 := by
  have harg := arg_fields w
  have hbyte : (argByte w).toNat < 256 := (argByte w).isLt
  rw [← BitVec.toNat_inj, BitVec.toNat_ofNat]
  omega

/-- The argument of a PBYTE's word is its byte (R82). -/
theorem argField_eq_argByte {w : Word} (h : argHigh w = 0#20) : (argField w).toNat = (argByte w).toNat := by
  rw [arg_fields, h]
  simp

/-! ### What decodes -/

/-- A decoded command has its opcode and its argument in the fields of the word (R82, R83). -/
theorem fields_of_decode {w : Word} {i : Instr} (h : decode w = .ok i) :
    (opField w).toNat = opcode i ∧ (argField w).toNat = argument i := by
  unfold decode at h
  split_ifs at h with hinit harg hpbyte hhigh hpbytes hgdig <;> cases h
  · exact ⟨by rw [hinit]; rfl, by rw [harg]; rfl⟩
  · exact ⟨by rw [hpbyte]; rfl, argField_eq_argByte hhigh⟩
  · exact ⟨by rw [hpbytes]; rfl, rfl⟩
  · exact ⟨by rw [hgdig]; rfl, rfl⟩

/-- A word with a command's opcode and argument in its fields decodes to that command (R82, R83). -/
theorem decode_of_fields {w : Word} {i : Instr} (hop : (opField w).toNat = opcode i)
    (harg : (argField w).toNat = argument i) : decode w = .ok i := by
  have hop' : opField w = BitVec.ofNat 4 (opcode i) := by rw [← hop]; simp
  cases i with
  | init =>
    have harg' : argField w = 0#28 := BitVec.eq_of_toNat_eq harg
    simp [decode, hop', harg', opcode]
  | pbyte b =>
    have hbyte : (argField w).toNat = b.toNat := harg
    have hhigh := (argHigh_eq_zero_iff w).2 (hbyte ▸ b.isLt)
    have hb : argByte w = b := BitVec.eq_of_toNat_eq ((argField_eq_argByte hhigh).symm.trans hbyte)
    simp [decode, hop', hhigh, hb, opcode]
  | pbytes len => simp [decode, hop', harg, opcode, argument]
  | gdig cap => simp [decode, hop', harg, opcode, argument]

/-- Settles O2: the word's two fields are the command's opcode and argument, and the decoder reads no more. -/
theorem decodeEncodeRoundTrip : Obligations.DecodeEncodeRoundTrip := by
  intro i hwf
  obtain ⟨hop, harg⟩ := fields_encode i hwf
  exact decode_of_fields hop harg

/-- Settles O3: the fields the command came from are those its word is made of. -/
theorem encodeDecodeRoundTrip : Obligations.EncodeDecodeRoundTrip := by
  intro w i hdec
  obtain ⟨hop, harg⟩ := fields_of_decode hdec
  refine ⟨wellFormed_of_decode hdec, ?_⟩
  rw [encode_eq_commandWord, ← hop, ← harg, commandWord_fields]

/-! ### What does not decode -/

/-- The words that decode, by their fields (R82, R83). -/
theorem decodes_iff_fields (w : Word) : (∃ i, decode w = .ok i) ↔
    ((opField w).toNat = 1 ∧ (argField w).toNat = 0) ∨
      ((opField w).toNat = 2 ∧ (argField w).toNat < 256) ∨
      (opField w).toNat = 3 ∨ (opField w).toNat = 4 := by
  constructor
  · rintro ⟨i, hdec⟩
    obtain ⟨hop, harg⟩ := fields_of_decode hdec
    cases i with
    | init => exact .inl ⟨hop, harg⟩
    | pbyte b => exact .inr (.inl ⟨hop, harg.trans_lt b.isLt⟩)
    | pbytes len => exact .inr (.inr (.inl hop))
    | gdig cap => exact .inr (.inr (.inr hop))
  · rintro (⟨hop, harg⟩ | ⟨hop, harg⟩ | hop | hop)
    · exact ⟨.init, decode_of_fields hop harg⟩
    · exact ⟨.pbyte (argByte w),
        decode_of_fields hop (argField_eq_argByte ((argHigh_eq_zero_iff w).2 harg))⟩
    · exact ⟨.pbytes (argField w).toNat, decode_of_fields hop rfl⟩
    · exact ⟨.gdig (argField w).toNat, decode_of_fields hop rfl⟩

theorem decode_error_iff (w : Word) :
    (∃ why, decode w = .error why) ↔ ¬ ∃ i, decode w = .ok i := by
  cases decode w <;> simp

/-- Settles O4: the ranges are the values the two fields of a word that does not decode can give it. -/
theorem reservedWordsExactly : Obligations.ReservedWordsExactly := by
  intro w
  have harg : (argField w).toNat < 268435456 := (argField w).isLt
  rw [decode_error_iff, decodes_iff_fields, word_fields w]
  omega

/-- Settles O1, word by word. -/
theorem decodeOfListedWords : Obligations.DecodeOfListedWords :=
  ⟨rfl, rfl, rfl, rfl, rfl, rfl, rfl, rfl, rfl, rfl, rfl, rfl⟩

/-! ### What a reserved word and a capacity do -/

/-- Settles O6: the word at the head of CMD is taken and decodes to nothing that runs. -/
theorem stepDiscardsReservedWord : Obligations.StepDiscardsReservedWord := by
  intro s w rest why hrst hidle hcmd hdec
  have htaken : cmdPop s = .reserved why { s with cmd := rest } := by simp only [cmdPop, hcmd, hdec]
  simp [step, hrst, hidle, htaken]

/-- Settles O28: an effective GDIG does not look at its capacity again. -/
theorem gdigCapacitiesAlike : Obligations.GdigCapacitiesAlike := fun _ s hcap => by
  rw [exec_gdig_effective hcap, exec_gdig_effective (Nat.le_refl 4)]

end Sys2Proof.Machine
end

section
/-! What assembler lines give (spec/30_encoding.md R95 to R97): the PBYTES commands of any length, and with them the
pseudo-commands. -/

namespace Sys2Proof.Machine

/-! ### The commands of a PBYTES of any length -/

theorem chunkLengths_le {len n : Nat} (h : n ∈ chunkLengths len) : n ≤ maxOperand := by
  rw [chunkLengths, List.mem_append] at h
  obtain hfull | hrest := h
  · exact (List.eq_of_mem_replicate hfull).le
  · split at hrest
    · cases hrest
    · rw [List.mem_singleton.1 hrest]
      exact (Nat.mod_lt len (by decide)).le

theorem chunkLengths_sum (len : Nat) : (chunkLengths len).sum = len := by
  have hrest : (if len % maxOperand = 0 then [] else [len % maxOperand]).sum = len % maxOperand := by
    split <;> simp [*]
  rw [chunkLengths, List.sum_append, List.sum_replicate, hrest, smul_eq_mul, Nat.div_add_mod']

/-- A PBYTES of any length is PBYTES commands whose lengths fit and add up to it (R97). -/
theorem pbytesCommands_eq_map (len : Nat) : ∃ lens : List Nat,
    pbytesCommands len = lens.map Instr.pbytes ∧ (∀ n ∈ lens, n ≤ maxOperand) ∧ lens.sum = len := by
  by_cases hfits : len ≤ maxOperand
  · exact ⟨[len], if_pos hfits, by simpa using hfits, by simp⟩
  · exact ⟨chunkLengths len, if_neg hfits, fun _ => chunkLengths_le, chunkLengths_sum len⟩

/-! ### The bytes that commands consume -/

@[simp] theorem dataNeeded_append (cs ds : List Instr) :
    dataNeeded (cs ++ ds) = dataNeeded cs + dataNeeded ds := by
  induction cs with
  | nil => simp [dataNeeded]
  | cons i rest ih => cases i <;> simp [dataNeeded, ih, Nat.add_assoc]

theorem dataNeeded_map_pbytes (lens : List Nat) : dataNeeded (lens.map Instr.pbytes) = lens.sum := by
  induction lens with
  | nil => rfl
  | cons n rest ih => simp [dataNeeded, ih]

/-- An operand up to the largest fits its field (R85, R96). -/
theorem wellFormed_pbytes {n : Nat} (h : n ≤ maxOperand) : (Instr.pbytes n).wellFormed = true :=
  decide_eq_true (Nat.lt_succ_of_le h)

/-- A capacity up to the largest fits its field (R86, R96). -/
theorem wellFormed_gdig {n : Nat} (h : n ≤ maxOperand) : (Instr.gdig n).wellFormed = true :=
  decide_eq_true (Nat.lt_succ_of_le h)

@[simp] theorem pbytesCommands_wellFormed (len : Nat) :
    (pbytesCommands len).all Instr.wellFormed = true := by
  obtain ⟨lens, heq, hfit, -⟩ := pbytesCommands_eq_map len
  rw [heq, List.all_map, List.all_eq_true]
  exact fun n hn => wellFormed_pbytes (hfit n hn)

@[simp] theorem dataNeeded_pbytesCommands (len : Nat) : dataNeeded (pbytesCommands len) = len := by
  obtain ⟨lens, heq, -, hsum⟩ := pbytesCommands_eq_map len
  rw [heq, dataNeeded_map_pbytes, hsum]

/-! ### The lines -/

/-- The commands and the data of a line that assembles (R96, R97). -/
theorem assemble_fits {l : AsmLine} {cs : List Instr} {data : List Byte}
    (h : assemble l = some (cs, data)) :
    cs.all Instr.wellFormed = true ∧ dataNeeded cs = data.length := by
  cases l with
  | init =>
    cases h
    exact ⟨rfl, rfl⟩
  | pbyte b =>
    obtain ⟨-, ⟨⟩⟩ := Option.ite_none_right_eq_some.1 h
    exact ⟨rfl, rfl⟩
  | pbytes len bytes =>
    obtain ⟨⟨hfits, hlen⟩, ⟨⟩⟩ := Option.ite_none_right_eq_some.1 h
    exact ⟨by simpa using wellFormed_pbytes hfits, hlen.symm⟩
  | gdig cap =>
    obtain ⟨hfits, ⟨⟩⟩ := Option.ite_none_right_eq_some.1 h
    exact ⟨by simpa using wellFormed_gdig hfits, rfl⟩
  | md5 bytes =>
    cases h
    exact ⟨by simpa [Instr.wellFormed] using wellFormed_gdig (n := 4) (by decide), by simp [dataNeeded]⟩
  | pstr text =>
    cases h
    exact ⟨pbytesCommands_wellFormed _, by simp [textBytes]⟩
  | longPbytes len bytes =>
    obtain ⟨⟨-, hlen⟩, ⟨⟩⟩ := Option.ite_none_right_eq_some.1 h
    exact ⟨pbytesCommands_wellFormed len, by rw [dataNeeded_pbytesCommands, hlen]⟩

/-- Settles O60, line by line. -/
theorem assembledLinesFit : Obligations.AssembledLinesFit := by
  refine ⟨fun l cs data => assemble_fits, fun l => ?_⟩
  cases l with
  | init => exact iff_of_true rfl trivial
  | pbyte b => exact Option.isSome_ite
  | pbytes len data => exact Option.isSome_ite
  | gdig cap => exact Option.isSome_ite
  | md5 data => exact iff_of_true rfl trivial
  | pstr text => exact iff_of_true rfl trivial
  | longPbytes len data => exact Option.isSome_ite

/-! ### The pseudo-command MD5 -/

/-- The words of `MD5 data`: those of its update between those of INIT and GDIG 4 (R97). -/
theorem assembleAll_md5 (data : List Byte) :
    assembleAll [.md5 data] =
      some (0x10000000#32 :: ((pbytesCommands data.length).map encode ++ [0x40000004#32]), data) := by
  simp [assembleAll, assemble, encode, commandWord]

/-- Settles O59: one PBYTES where the length fits its field, else the chunks. -/
theorem assembledMd5 : Obligations.AssembledMd5 := by
  intro data
  rw [assembleAll_md5]
  refine ⟨fun hfits => ?_, fun hlong => ?_⟩
  · have hone : pbytesCommands data.length = [.pbytes data.length] := if_pos hfits
    rw [hone]
    rfl
  · obtain ⟨lens, heq, hle, hsum⟩ := pbytesCommands_eq_map data.length
    refine ⟨lens, hle, hsum, ?_⟩
    rw [heq, List.map_map]
    rfl

end Sys2Proof.Machine
end

section
/-! The INIT command (spec/40_init.md R110 to R114): it writes the persistent state and nothing else, so it changes
nothing where the persistent state is already initial. -/

namespace Sys2Proof.Machine

/-- Settles O12, field by field: the persistent state is written, the scratch state and the ports are kept. -/
theorem initWritesInitialState : Obligations.InitWritesInitialState := fun s =>
  ⟨initialState s, exec_init s,
    initialState_h s, initialState_bl s, Memory.read_nil, initialState_fin s, initialState_phase s,
    initialState_m s, initialState_w s, initialState_i s,
    initialState_cmd s, initialState_din s, initialState_takes s, initialState_dout s, initialState_rst s,
    initialState_fresh s⟩

/-- INIT changes nothing where the persistent state is initial and the block idle (R110, R112, R113). -/
theorem exec_init_of_initial {s : State} (hh : s.h = iv) (hbl : s.bl = 0#64) (hbuf : s.buf = [])
    (hfin : s.fin = false) (hidle : s.phase = .idle) : exec .init s = .next s := by
  have hsame : initialState s = s := by
    rw [initialState, setFin, enter, ← hh, ← hbl, ← hbuf, ← hfin, ← hidle]
  rw [exec_init, hsame]

/-- A pending reset event is what the next step does (R74). -/
theorem step_of_rst {s : State} (h : s.rst = true) : step s = .next (resetEvent s) :=
  if_pos h

/-- Settles O13: INIT and the reset event leave the persistent state initial and the block idle, as it is in the
state after reset. -/
theorem initIdempotent : Obligations.InitIdempotent := by
  refine ⟨fun s t h => ?_, exec_init_of_initial rfl rfl rfl rfl rfl, fun s t hrst h => ?_⟩
  · cases h
    exact exec_init_of_initial (initialState_h s) (initialState_bl s) (initialState_buf s)
      (initialState_fin s) (initialState_phase s)
  · rw [step_of_rst hrst] at h
    cases h
    exact exec_init_of_initial (resetEvent_h s) (resetEvent_bl s) (resetEvent_buf s)
      (resetEvent_fin s) (resetEvent_phase s)

end Sys2Proof.Machine
end

section
/-! The three steps of PBYTES (spec/41_update.md R120 to R123, R128, R129): the copy loop, cut where it fills a
block, is the head step, the whole blocks and the tail; what they leave in `H` and in `BUF` follows. -/

namespace Sys2Proof.Machine

/-! ### Data cut where it fills a block -/

/-- Data for the offset `u` is too short to fill the block, or is what fills it and then the data for offset 0. -/
theorem blockCut_induction {P : Offset → List Byte → Prop}
    (short : ∀ u data, u.toNat + data.length < 64 → P u data)
    (full : ∀ u x y, u.toNat + x.length = 64 → P 0#6 y → P u (x ++ y)) (u : Offset) (data : List Byte) :
    P u data := by
  induction hn : data.length using Nat.strong_induction_on generalizing u data with
  | _ n ih =>
    subst hn
    by_cases hfit : u.toNat + data.length < 64
    · exact short u data hfit
    · have hu := u.isLt
      rw [← List.take_append_drop (64 - u.toNat) data]
      refine full u _ _ ?_ (ih _ ?_ 0#6 _ rfl)
      · rw [List.length_take]; omega
      · rw [List.length_drop]; omega

/-! ### The steps of the rule -/

theorem copyBytes_cons (pos : Nat) (b : Byte) (data : List Byte) (s : State) :
    copyBytes pos (b :: data) s = copyBytes (pos + 1) data (setBuf s pos b) := rfl

@[simp] theorem copyBytes_h (pos : Nat) (data : List Byte) (s : State) : (copyBytes pos data s).h = s.h := rfl
@[simp] theorem copyBytes_bl (pos : Nat) (data : List Byte) (s : State) : (copyBytes pos data s).bl = s.bl := rfl
@[simp] theorem copyBytes_buf (pos : Nat) (data : List Byte) (s : State) :
    (copyBytes pos data s).buf = s.buf.writeAll pos data := rfl

@[simp] theorem updateSteps_zero (data : List Byte) (s : State) :
    updateSteps 0#6 data s = blocksAndTail data s := if_pos rfl

/-- Less than a block at offset 0 is the tail alone (R123). -/
theorem blocksAndTail_short {data : List Byte} (h : data.length < 64) (s : State) :
    blocksAndTail data s = copyBytes 0 data s := by
  rw [blocksAndTail, Nat.div_eq_of_lt h]
  rfl

/-- A whole block at offset 0 is copied and compressed before the others (R122). -/
theorem blocksAndTail_block {x : List Byte} (hx : x.length = 64) (y : List Byte) (s : State) :
    blocksAndTail (x ++ y) s = blocksAndTail y (compressBlock (copyBytes 0 x s)) := by
  have hcount : (x ++ y).length / 64 = y.length / 64 + 1 := by
    rw [List.length_append]; omega
  have hskip : 64 * (y.length / 64 + 1) = x.length + 64 * (y.length / 64) := by omega
  rw [blocksAndTail, hcount, hskip, List.drop_length_add_append, wholeBlocks_succ, List.drop_left' hx,
    List.take_left' hx, blocksAndTail]

/-- Data that completes no block is copied where the valid bytes end (R121, R123). -/
theorem updateSteps_short {u : Offset} {data : List Byte} (h : u.toNat + data.length < 64) (s : State) :
    updateSteps u data s = copyBytes u.toNat data s := by
  by_cases hu : u = 0#6
  · subst hu
    rw [updateSteps_zero, blocksAndTail_short (by omega)]
    rfl
  · rw [updateSteps, if_neg hu, if_pos (by omega)]

/-- Data that completes a block fills the buffer to its end, runs a pass, and goes on at offset 0; from offset 0
the block completed is a whole block of the data (R121, R122). -/
theorem updateSteps_full {u : Offset} {x : List Byte} (h : u.toNat + x.length = 64) (y : List Byte)
    (s : State) :
    updateSteps u (x ++ y) s = updateSteps 0#6 y (compressBlock (copyBytes u.toNat x s)) := by
  rw [updateSteps_zero]
  by_cases hu : u = 0#6
  · subst hu
    rw [updateSteps_zero, blocksAndTail_block (by simpa using h)]
    rfl
  · have hx : x.length = 64 - u.toNat := by omega
    have hlong : ¬ (x ++ y).length < 64 - u.toNat := by rw [List.length_append]; omega
    rw [updateSteps, if_neg hu, if_neg hlong, List.drop_left' hx, List.take_left' hx]

/-! ### The copy loop is the three steps -/

/-- Below offset 63 a byte is stored without a pass. -/
theorem storeByte_of_lt {pos : Offset} (h : pos.toNat < 63) (b : Byte) (s : State) :
    storeByte pos b s = setBuf s pos.toNat b :=
  if_neg fun he => by simp [he] at h

theorem offset_succ_toNat {pos : Offset} (h : pos.toNat < 63) : (pos + 1).toNat = pos.toNat + 1 :=
  BitVec.toNat_add_of_lt (by rw [show (1 : Offset).toNat = 1 from rfl]; omega)

/-- Bytes that stay below the end of the block are copied. -/
theorem absorb_copy {pos : Offset} {data rest : List Byte} {s : State} (hdin : s.din = data ++ rest)
    (hfit : pos.toNat + data.length < 64) :
    absorb data.length pos s = enter .idle (copyBytes pos.toNat data (dinPop s rest)) := by
  induction data generalizing pos s with
  | nil => rw [← show s.din = rest from hdin]; rfl
  | cons b data ih =>
    rw [List.length_cons] at hfit
    have hpos : pos.toNat < 63 := by omega
    have hnext := offset_succ_toNat hpos
    rw [List.length_cons, absorb_byte hdin, storeByte_of_lt hpos, ih rfl (by omega), hnext, copyBytes_cons]
    rfl

/-- Bytes that reach the end of the block are copied and the block compressed. -/
theorem absorb_fill {pos : Offset} {data rest : List Byte} {s : State} (hdin : s.din = data ++ rest)
    (hfull : pos.toNat + data.length = 64) :
    absorb data.length pos s =
      enter .idle (compressBlock (copyBytes pos.toNat data (dinPop s rest))) := by
  induction data generalizing pos s with
  | nil => exact absurd hfull pos.isLt.ne
  | cons b data ih =>
    rw [List.length_cons] at hfull
    rw [List.length_cons, absorb_byte hdin]
    by_cases hpos : pos.toNat < 63
    · have hnext := offset_succ_toNat hpos
      rw [storeByte_of_lt hpos, ih rfl (by omega), hnext, copyBytes_cons]
      rfl
    · have hu := pos.isLt
      obtain rfl : data = [] := List.eq_nil_of_length_eq_zero (by omega)
      have hlast : pos = 63#6 := BitVec.eq_of_toNat_eq (by simpa using hfull)
      rw [storeByte, if_pos hlast]
      rfl

/-- A pass does not look at the data-in port (R178). -/
theorem compressBlock_dinPop (s : State) (rest : List Byte) :
    compressBlock (dinPop s rest) = dinPop (compressBlock s) rest := by
  rw [compressBlock_eq, compressBlock_eq]
  rfl

/-- The copy loop with its bytes on offer runs the three steps, block by block (R121, R122, R123). -/
theorem absorb_eq_updateSteps (u : Offset) (data : List Byte) {rest : List Byte} {s : State}
    (hdin : s.din = data ++ rest) :
    absorb data.length u s = enter .idle (updateSteps u data (dinPop s rest)) := by
  induction u, data using blockCut_induction generalizing s with
  | short u data hfit => rw [absorb_copy hdin hfit, updateSteps_short hfit]
  | full u x y hfull ih =>
    rw [List.append_assoc] at hdin
    have hoffer : x.length ≤ s.din.length := by rw [hdin, List.length_append]; exact Nat.le_add_right _ _
    have hwrap : u + BitVec.ofNat 6 x.length = 0#6 := by
      apply BitVec.eq_of_toNat_eq
      rw [BitVec.toNat_add, BitVec.toNat_ofNat, BitVec.toNat_ofNat]
      omega
    rw [updateSteps_full hfull, List.length_append, absorb_split _ _ _ _ hoffer, hwrap,
      absorb_fill hdin hfull, absorb_enter, ih (compressBlock_din _), ← compressBlock_dinPop]
    rfl

/-- With `FIN = 0` and its bytes on offer a PBYTES is the counter step and the three steps (R120 to R123). -/
theorem exec_pbytes_eq_updateSteps {data rest : List Byte} {s : State} (hfin : s.fin = false)
    (hdin : s.din = data ++ rest) :
    exec (.pbytes data.length) s =
      .next (enter .idle (updateSteps (used s) data (dinPop (advanceCounter s data.length) rest))) := by
  rw [exec_pbytes_open hfin]
  exact congrArg _ (absorb_eq_updateSteps (used s) data (s := advanceCounter s data.length) hdin)

/-- Settles O17: the copy loop is the three steps. -/
theorem pbytesFollowsThreeSteps : Obligations.PbytesFollowsThreeSteps := by
  rintro _ data rest s hfin hdin rfl
  exact exec_pbytes_eq_updateSteps hfin hdin

/-! ### The chaining value after the three steps -/

@[simp] theorem updateSteps_bl (u : Offset) (data : List Byte) (s : State) :
    (updateSteps u data s).bl = s.bl := by
  induction u, data using blockCut_induction generalizing s with
  | short u data hfit => rw [updateSteps_short hfit, copyBytes_bl]
  | full u x y hfull ih => rw [updateSteps_full hfull, ih, compressBlock_bl, copyBytes_bl]

@[simp] theorem used_updateSteps (u : Offset) (data : List Byte) (s : State) :
    used (updateSteps u data s) = used s :=
  congrArg usedOf (updateSteps_bl u data s)

/-- A buffer filled to its end is the block of its first `u` bytes and the bytes copied behind them. -/
theorem Memory.read_writeAll_block {m : Memory} (h : m.wf = true) {u : Nat} {x : List Byte}
    (hfull : u + x.length = 64) (p : Nat) (hp : p < 64) :
    (m.writeAll u x).read p = blockAt ((List.range u).map m.read ++ x) 0 p := by
  have hlen : ((List.range u).map m.read).length = u := by rw [List.length_map, List.length_range]
  rw [Memory.read_writeAll h u x (.inr hfull.le), blockAt, Nat.mul_zero, Nat.zero_add]
  by_cases hu : u ≤ p
  · rw [if_pos ⟨hu, by omega⟩, List.getD_append_right _ _ _ _ (by rwa [hlen]), hlen]
  · rw [if_neg (by omega), List.getD_append _ _ _ _ (by omega)]
    simp [Nat.not_le.1 hu]

/-- The three steps chain the compression function over the blocks of the first `u` buffer bytes and the data,
block by block (R22, R128). -/
theorem updateSteps_h (u : Offset) (data : List Byte) {s : State} (hwf : s.buf.wf = true) :
    (updateSteps u data s).h = chain s.h ((List.range u.toNat).map s.buf.read ++ data) := by
  induction u, data using blockCut_induction generalizing s with
  | short u data hfit =>
    rw [updateSteps_short hfit, copyBytes_h, chain_short]
    simpa using hfit
  | full u x y hfull ih =>
    have hwf' : (compressBlock (copyBytes u.toNat x s)).buf.wf = true := by
      rw [compressBlock_buf]
      exact Memory.wf_writeAll hwf _ _ (.inr hfull.le)
    have hpass : (compressBlock (copyBytes u.toNat x s)).h =
        compressionFunction s.h (blockAt ((List.range u.toNat).map s.buf.read ++ x) 0) := by
      rw [compressBlock_h]
      exact compressionFunction_congr _ (Memory.read_writeAll_block hwf hfull)
    have hblock : ((List.range u.toNat).map s.buf.read ++ x).length = 64 := by
      rw [List.length_append, List.length_map, List.length_range, hfull]
    calc (updateSteps u (x ++ y) s).h
        = chain (compressBlock (copyBytes u.toNat x s)).h y := by rw [updateSteps_full hfull, ih hwf']; rfl
      _ = chain s.h ((List.range u.toNat).map s.buf.read ++ (x ++ y)) := by
        rw [hpass, ← List.append_assoc, chain_block _ _ _ hblock]

/-- Settles O22, by the three steps of the rule: they chain block by block, and data that completes none is only
copied. -/
theorem pbytesChainsCompletedBlocks : Obligations.PbytesChainsCompletedBlocks := by
  rintro _ data rest s hfin hdin rfl hwf
  refine ⟨_, exec_pbytes_eq_updateSteps hfin hdin, updateSteps_h (used s) data hwf, ?_, fun hshort => ?_⟩
  · have hused : used (dinPop (advanceCounter s data.length) rest) = used s + BitVec.ofNat 6 data.length :=
      used_advanceCounter s data.length
    rw [used_enter, used_updateSteps, hused, BitVec.toNat_add, BitVec.toNat_ofNat, Nat.add_mod_mod]
  · rw [updateSteps_short hshort]
    exact ⟨rfl, rfl, rfl, rfl⟩

/-! ### The buffer after the copy loop -/

/-- The last byte of the data is written where the bytes before it end, modulo 64. -/
theorem absorb_snoc_buf {data rest : List Byte} {b : Byte} {s : State} (hdin : s.din = data ++ b :: rest)
    (pos : Offset) :
    (absorb (data.length + 1) pos s).buf =
      (absorb data.length pos s).buf.write ((pos.toNat + data.length) % 64) b := by
  have hoffer : data.length ≤ s.din.length := by rw [hdin, List.length_append]; exact Nat.le_add_right _ _
  have hnext : (absorb data.length pos s).din = b :: rest := by rw [absorb_din, hdin, List.drop_left]
  rw [absorb_split _ _ _ _ hoffer, absorb_byte hnext, absorb_zero, enter_buf, storeByte_buf, dinPop_buf,
    BitVec.toNat_add, BitVec.toNat_ofNat, Nat.add_mod_mod]

/-- An offset the data reached holds the last byte stored there (R129). -/
theorem absorb_read_reached {data rest : List Byte} {s : State} (hwf : s.buf.wf = true)
    (hdin : s.din = data ++ rest) (pos : Offset) {j : Nat} (hj : j < data.length)
    (hlast : data.length ≤ j + 64) :
    (absorb data.length pos s).buf.read ((pos.toNat + j) % 64) = data.getD j 0x00#8 := by
  induction data using List.reverseRecOn generalizing rest with
  | nil => exact absurd hj (Nat.not_lt_zero j)
  | append_singleton data b ih =>
    rw [List.append_assoc] at hdin
    rw [List.length_append, List.length_singleton] at hj hlast ⊢
    rw [absorb_snoc_buf hdin]
    by_cases hnew : j = data.length
    · subst hnew
      rw [Memory.read_write_same (absorb_wf hwf _ _), List.getD_append_right _ _ _ _ le_rfl, Nat.sub_self]
      rfl
    · rw [Memory.read_write_ne _ _ (by omega), ih hdin (by omega) (by omega),
        List.getD_append _ _ _ _ (by omega)]

/-- An offset the data did not reach keeps its byte (R58, R129). -/
theorem absorb_read_unreached {data rest : List Byte} {s : State} (hdin : s.din = data ++ rest)
    (pos : Offset) {p : Nat} (hp : ∀ j, j < data.length → (pos.toNat + j) % 64 ≠ p) :
    (absorb data.length pos s).buf.read p = s.buf.read p := by
  induction data using List.reverseRecOn generalizing rest with
  | nil => rfl
  | append_singleton data b ih =>
    rw [List.append_assoc] at hdin
    rw [List.length_append, List.length_singleton] at hp ⊢
    rw [absorb_snoc_buf hdin, Memory.read_write_ne _ _ (hp _ (Nat.lt_succ_self _)).symm,
      ih hdin fun j hj => hp j (Nat.lt_succ_of_lt hj)]

/-- Settles O21, by the order in which the copy loop stores its bytes. -/
theorem pbytesBufferBytes : Obligations.PbytesBufferBytes := by
  rintro _ data rest s hfin hdin rfl hwf
  exact ⟨_, exec_pbytes_open hfin _,
    fun _ hj hlast => absorb_read_reached (s := advanceCounter s data.length) hwf hdin (used s) hj hlast,
    fun _ hp => absorb_read_unreached (s := advanceCounter s data.length) hdin (used s) hp⟩

end Sys2Proof.Machine
end

section
/-! An update of no byte and of one, and the counter step on its two halves (spec/41_update.md R124, R126, R127). -/

namespace Sys2Proof.Machine

/-! ### No byte and one byte -/

/-- Settles O18: with no byte to copy the counter stays too, finalized or not. -/
theorem pbytesZeroChangesNothing : Obligations.PbytesZeroChangesNothing := fun _ => exec_pbytes_zero

/-- Settles O16: the byte is stored at `used`, the last offset is the one that runs a pass, and PBYTES 1 stores the
same byte. -/
theorem pbyteStoresByte : Obligations.PbyteStoresByte := by
  intro b s hfin hwf
  obtain ⟨t, hexec, hidle, hfin', hdin, hone⟩ := exec_pbyte_as_pbytes b hfin
  have ht : t = enter .idle (storeByte (used s) b (advanceCounter s 1)) := by
    rw [exec_pbyte, workingState_open hfin] at hexec
    exact (Host.Outcome.next.inj hexec).symm
  have hbuf : t.buf = s.buf.write (used s).toNat b := by simp [ht]
  have hpbytes : exec (.pbytes 1) { s with din := b :: s.din } = .next t := by rw [hone, ← hdin]
  refine ⟨t, hexec, by simp [ht, advance], ?_, fun p hp => ?_, fun hopen => ?_, fun hfull => ?_,
    hidle, hfin', by simp [ht], hdin, by simp [ht], by simp [ht], by simp [ht], by simp [ht], hpbytes⟩
  · rw [hbuf, Memory.read_write_same hwf]
  · rw [hbuf, Memory.read_write_ne _ _ hp]
  · have hlt := (used s).isLt
    rw [ht, storeByte_of_lt (by omega)]
    exact ⟨rfl, rfl, rfl, rfl⟩
  · have hlast : used s = 63#6 := BitVec.eq_of_toNat_eq hfull
    rw [hbuf, ht, enter_h, storeByte_h, if_pos hlast]
    rfl

/-! ### The counter in two halves -/

/-- The carry is what the sum of the low half has above its 32 bits (R124). -/
theorem lowHalfCarry_toNat (low add : Word) :
    (lowHalfCarry low add).toNat = (low.toNat + add.toNat) / 2 ^ 32 := by
  have hlow := low.isLt
  have hadd := add.isLt
  have hsum := BitVec.toNat_add low add
  by_cases hcarry : low + add < low
  · rw [lowHalfCarry, if_pos hcarry, show (1#32).toNat = 1 from rfl]
    rw [BitVec.lt_def] at hcarry
    omega
  · rw [lowHalfCarry, if_neg hcarry, show (0#32).toNat = 0 from rfl]
    rw [BitVec.lt_def] at hcarry
    omega

/-- The step on the halves is the step on the number they make (R8, R124). -/
theorem advanceHalves_toNat (bl : Counter) (add : Word) :
    (advanceHalves bl add).toNat = (bl.toNat + add.toNat) % 2 ^ 64 := by
  have hbl := bl.isLt
  have hlow : (counterLow bl).toNat = bl.toNat % 2 ^ 32 := by
    rw [counterLow, BitVec.extractLsb'_toNat, Nat.shiftRight_zero]
  have hhigh : (counterHigh bl).toNat = bl.toNat / 2 ^ 32 % 2 ^ 32 := by
    rw [counterHigh, BitVec.extractLsb'_toNat, Nat.shiftRight_eq_div_pow]
  rw [advanceHalves, BitVec.toNat_append, ← Nat.shiftLeft_add_eq_or_of_lt (BitVec.isLt _),
    Nat.shiftLeft_eq, BitVec.toNat_add, BitVec.toNat_add, lowHalfCarry_toNat, hlow, hhigh]
  omega

/-- Settles O46: eight times a length that fits its field fits the low half. -/
theorem counterHalvesAgree : Obligations.CounterHalvesAgree := by
  intro bl len hlen
  have hsum : (advance bl len).toNat = (bl.toNat + 8 * len) % 2 ^ 64 := by
    rw [advance, BitVec.toNat_add, BitVec.toNat_ofNat, Nat.add_mod_mod]
  have hfits : (BitVec.ofNat 32 (8 * len)).toNat = 8 * len := by
    rw [BitVec.toNat_ofNat]; omega
  exact ⟨BitVec.eq_of_toNat_eq (by rw [hsum, advanceHalves_toNat, hfits]), hsum⟩

end Sys2Proof.Machine
end

section
/-! After finalization (spec/41_update.md R131; spec/42_finalize.md R156; spec/60_exceptions.md R204): what an update
or an effective GDIG is made of carries `FIN` along and does not read it, so it does what it does with `FIN = 0`. -/

namespace Sys2Proof.Machine

/-! ### The parts of a command carry `FIN` along -/

theorem compressBlock_setFin (v : Bool) (s : State) :
    compressBlock (setFin v s) = setFin v (compressBlock s) := by
  rw [compressBlock_eq, compressBlock_eq]
  rfl

theorem storeByte_setFin (pos : Offset) (b : Byte) (v : Bool) (s : State) :
    storeByte pos b (setFin v s) = setFin v (storeByte pos b s) := by
  unfold storeByte
  split
  · exact compressBlock_setFin v (setBuf s pos.toNat b)
  · rfl

theorem absorb_setFin (size : Nat) (pos : Offset) (v : Bool) (s : State) :
    absorb size pos (setFin v s) = setFin v (absorb size pos s) := by
  induction size generalizing pos s with
  | zero => rfl
  | succ size ih =>
    cases hd : s.din with
    | nil => rw [absorb_wait hd, absorb_wait (s := setFin v s) hd]; rfl
    | cons b rest =>
      rw [absorb_byte hd, absorb_byte (s := setFin v s) hd, ← ih, ← storeByte_setFin]
      rfl

theorem padMarker_setFin (v : Bool) (s : State) : padMarker (setFin v s) = setFin v (padMarker s) := by
  have hbuf : (padMarker (setFin v s)).buf = (padMarker s).buf := by
    rw [padMarker_buf, padMarker_buf]
    rfl
  rw [padMarker_eq, hbuf, padMarker_eq s]
  rfl

theorem padFresh_setFin (v : Bool) (s : State) : padFresh (setFin v s) = setFin v (padFresh s) := by
  have hbuf : (padFresh (setFin v s)).buf = (padFresh s).buf := by
    rw [padFresh_buf, padFresh_buf]
    rfl
  rw [padFresh_eq, hbuf, padFresh_eq s]
  rfl

theorem finalPasses_setFin (v : Bool) (s : State) :
    finalPasses (setFin v s) = setFin v (finalPasses s) := by
  unfold finalPasses
  rw [show used (setFin v s) = used s from rfl]
  split
  · rw [padMarker_setFin, compressBlock_setFin, padFresh_setFin, compressBlock_setFin]
  · rw [padMarker_setFin, compressBlock_setFin]

/-- The sending loop sets `FIN` or carries it along, so where it finds it set it leaves it set. -/
theorem emit_setFin_true (ks : List (Fin 4)) (s : State) :
    emit ks (setFin true s) = setFin true (emit ks s) := by
  induction ks generalizing s with
  | nil => rfl
  | cons k rest ih =>
    by_cases ht : s.takes = 0
    · rw [emit, emit, if_pos ht, if_pos (show (setFin true s).takes = 0 from ht)]
      rfl
    · rw [emit, emit, if_neg ht, if_neg (show (setFin true s).takes ≠ 0 from ht)]
      exact ih (doutPush s (digestWord s.h k))

/-! ### The commands after finalization -/

/-- After finalization the working state is one with `FIN = 0` whose `FIN` is then set. -/
theorem workingState_eq_setFin_open {s : State} (h : s.fin = true) :
    ∃ w, w.fin = false ∧ { workingState s with fin := false } = w ∧ workingState s = setFin true w := by
  refine ⟨_, rfl, rfl, ?_⟩
  rw [workingState_finalized h]
  exact congrArg (fun v => { consumed s with fin := v }) h

/-- Settles O15, command by command: what each is made of carries `FIN` along. -/
theorem afterFinalizationOrdinaryRuleRuns : Obligations.AfterFinalizationOrdinaryRuleRuns := by
  intro i s huse hzero
  obtain ⟨hfin, heffective⟩ := Bool.and_eq_true_iff.1 huse
  obtain ⟨w, hopen, hw, hwork⟩ := workingState_eq_setFin_open hfin
  rw [hw]
  cases i with
  | init => exact absurd heffective Bool.false_ne_true
  | pbyte b =>
    refine ⟨_, exec_pbyte b w, ?_⟩
    rw [exec_pbyte, hwork, workingState_open hopen]
    exact congrArg (fun t => Host.Outcome.next (enter .idle t))
      (storeByte_setFin (used w) b true (advanceCounter w 1))
  | pbytes len =>
    have hlen : len ≠ 0 := fun h => hzero (congrArg Instr.pbytes h)
    refine ⟨_, exec_pbytes_open hopen len, ?_⟩
    rw [exec_pbytes, pbytesState, if_neg hlen, hwork]
    exact congrArg _ (absorb_setFin len (used w) true (advanceCounter w len))
  | gdig cap =>
    have hcap : 4 ≤ cap := (capacitySuffices_iff cap).1 heffective
    refine ⟨_, exec_gdig_effective hcap w, ?_⟩
    rw [exec_gdig_effective hcap, hwork, finalPasses_setFin, emit_setFin_true, workingState_open hopen]
    rfl

end Sys2Proof.Machine
end

section
/-! The digest as bytes and as words (spec/42_finalize.md R150, R152, R153). -/

namespace Sys2Proof.Machine

/-- The bytes of a word put together from four, most significant first. -/
theorem extract_append_bytes (a b c d : Byte) :
    (a ++ b ++ c ++ d).extractLsb' 24 8 = a ∧ (a ++ b ++ c ++ d).extractLsb' 16 8 = b ∧
      (a ++ b ++ c ++ d).extractLsb' 8 8 = c ∧ (a ++ b ++ c ++ d).extractLsb' 0 8 = d := by
  have htop : ∀ {n : Nat} (x : BitVec n) (y : Byte) (k : Nat),
      (x ++ y).extractLsb' (k + 8) 8 = x.extractLsb' k 8 := fun x y k => by
    rw [BitVec.extractLsb'_append_eq_of_le (Nat.le_add_left 8 k), Nat.add_sub_cancel]
  have hlow : ∀ {n : Nat} (x : BitVec n) (y : Byte), (x ++ y).extractLsb' 0 8 = y := fun x y => by
    rw [BitVec.extractLsb'_append_eq_of_add_le (by decide), BitVec.extractLsb'_eq_self]
  refine ⟨?_, ?_, ?_, hlow _ d⟩
  · rw [htop _ d 16, htop _ c 8, htop a b 0, BitVec.extractLsb'_eq_self]
  · rw [htop _ d 8, htop _ c 0, hlow]
  · rw [htop _ d 0, hlow]

/-- Settles O35: both words are the same four bytes put together. -/
theorem digestWordIsByteSwap : Obligations.DigestWordIsByteSwap := fun h k =>
  ⟨rfl, extract_append_bytes (digestByte h k 0) (digestByte h k 1) (digestByte h k 2) (digestByte h k 3)⟩

theorem digestWords_eq_bswap32 (h : Quad) :
    digestWords h = [bswap32 h.a, bswap32 h.b, bswap32 h.c, bswap32 h.d] := rfl

/-- The bytes of a digest word, most significant first, are four bytes of the digest in order (R153). -/
theorem wordBytes_digestWord_cons (h : Quad) (k : Fin 4) (ws : List Word) :
    wordBytes (digestWord h k :: ws) =
      (List.range 4).map (fun t => digestByte h k t) ++ wordBytes ws := by
  obtain ⟨-, h0, h1, h2, h3⟩ := digestWordIsByteSwap h k
  rw [wordBytes, List.flatMap_cons, h0, h1, h2, h3]
  rfl

/-- The four words of a digest carry its 16 bytes (R152, R153). -/
theorem wordBytes_digestWords (h : Quad) : wordBytes (digestWords h) = digestBytes h := by
  simp only [digestWords, wordBytes_digestWord_cons]
  rfl

/-- Settles O57, by running the model's MD5 on the two messages. -/
theorem knownDigests : Obligations.KnownDigests := by
  constructor
  · decide +kernel
  · decide +kernel

end Sys2Proof.Machine
end

section
/-! The blocks that GDIG pads and compresses (spec/42_finalize.md R143 to R148, R155). -/

namespace Sys2Proof.Machine

/-! ### The padded blocks -/

/-- In the one-block case the block of R148 is the marker block with the length in its last eight bytes. -/
theorem oneBlock_eq_markerBlock {u : Nat} (hu : u ≤ 55) (byte : Nat → Byte) (bl : Counter) (p : Nat) :
    oneBlock byte u bl p = if p < 56 then markerBlock byte u p else lengthByte bl (p - 56) := by
  rw [oneBlock, markerBlock]
  by_cases hlen : p < 56
  · rw [if_pos hlen, if_pos hlen]
  · rw [if_neg (by omega), if_neg (by omega), if_neg hlen, if_neg hlen]

/-- The marker behind `u` bytes and `n` zeros behind it are the start of the marker block (R143 to R145). -/
theorem Memory.read_marked {m : Memory} (hwf : m.wf = true) {u n p : Nat} (hfit : u + 1 + n ≤ 64)
    (hp : p < u + 1 + n) : ((m.write u 0x80#8).fill (u + 1) 0x00#8 n).read p = markerBlock m.read u p := by
  rw [Memory.read_fill (Memory.wf_write hwf (by omega) _) _ _ _ (.inr hfit), markerBlock]
  rcases lt_trichotomy p u with hlt | rfl | hgt
  · rw [if_neg (by omega), if_pos hlt, Memory.read_write_ne _ _ (by omega)]
  · rw [if_neg (by omega), if_neg (by omega), if_pos rfl, Memory.read_write_same hwf]
  · rw [if_pos (by omega), if_neg (by omega), if_neg (by omega)]

/-- In the one-block case the padded buffer is the block of R148. -/
theorem padMarker_read_oneBlock {s : State} (hwf : s.buf.wf = true) (hu : (used s).toNat ≤ 55) {p : Nat}
    (hp : p < 64) : (padMarker s).buf.read p = oneBlock s.buf.read (used s).toNat s.bl p := by
  have hmarked := Memory.wf_fill (Memory.wf_write hwf (used s).isLt 0x80#8) ((used s).toNat + 1) 0x00#8
    (55 - (used s).toNat) (.inr (by omega))
  rw [padMarker_buf, if_neg (by rw [needsSecondBlock_iff]; omega), Memory.read_lengthField hmarked,
    oneBlock_eq_markerBlock hu]
  by_cases hlen : p < 56
  · rw [if_neg (by omega), if_pos hlen, Memory.read_marked hwf (by omega) (by omega)]
  · rw [if_pos (by omega), if_neg hlen, lengthByte]

/-- In the two-block case it is the first block of R148. -/
theorem padMarker_read_markerBlock {s : State} (hwf : s.buf.wf = true) (hu : 56 ≤ (used s).toNat) {p : Nat}
    (hp : p < 64) : (padMarker s).buf.read p = markerBlock s.buf.read (used s).toNat p := by
  have hlt := (used s).isLt
  rw [padMarker_buf, if_pos ((needsSecondBlock_iff _).2 hu), Memory.read_marked hwf (by omega) (by omega)]

/-- The fresh block is the second block of R148. -/
theorem padFresh_read {s : State} (hwf : s.buf.wf = true) {p : Nat} (hp : p < 64) :
    (padFresh s).buf.read p = freshBlock s.bl p := by
  have hfit : 64 = 0 ∨ 0 + 64 ≤ 64 := .inr le_rfl
  rw [padFresh_buf, Memory.read_lengthField (Memory.wf_fill hwf _ _ _ hfit),
    Memory.read_fill hwf _ _ _ hfit, freshBlock]
  by_cases hlen : 56 ≤ p
  · rw [if_pos ⟨hlen, hp⟩, if_neg (by omega), lengthByte]
  · rw [if_neg (by omega), if_pos (by omega), if_pos (by omega)]

/-! ### The final pass -/

/-- `H` before the final pass: as GDIG found it, or with the marker block of the two-block case compressed. -/
def hashBeforeLast (s : State) : Quad :=
  if (used s).toNat ≤ 55 then s.h else compressionFunction s.h (markerBlock s.buf.read (used s).toNat)

/-- The block of the final pass: the only one, or the fresh one of the two-block case. -/
def lastBlock (s : State) (p : Nat) : Byte :=
  if (used s).toNat ≤ 55 then oneBlock s.buf.read (used s).toNat s.bl p else freshBlock s.bl p

/-- Padding and its passes end with the pass over the last block (R147). -/
theorem finalPasses_eq_lastPass {s : State} (hwf : s.buf.wf = true) :
    ∃ r, finalPasses s = compressBlock r ∧ r.h = hashBeforeLast s ∧
      ∀ p, p < 64 → r.buf.read p = lastBlock s p := by
  by_cases hu : (used s).toNat ≤ 55
  · refine ⟨padMarker s, ?_, ?_, fun p hp => ?_⟩
    · rw [finalPasses, if_neg (by rw [needsSecondBlock_iff]; omega)]
    · rw [padMarker_h, hashBeforeLast, if_pos hu]
    · rw [lastBlock, if_pos hu, padMarker_read_oneBlock hwf hu hp]
  · have hu' : 56 ≤ (used s).toNat := by omega
    have hwf' : (compressBlock (padMarker s)).buf.wf = true := by
      rw [compressBlock_buf]
      exact padMarker_wf hwf
    refine ⟨padFresh (compressBlock (padMarker s)), ?_, ?_, fun p hp => ?_⟩
    · rw [finalPasses, if_pos ((needsSecondBlock_iff _).2 hu')]
    · rw [padFresh_h, compressBlock_h, padMarker_h, hashBeforeLast, if_neg hu]
      exact compressionFunction_congr _ fun p hp => padMarker_read_markerBlock hwf hu' hp
    · rw [lastBlock, if_neg hu, padFresh_read hwf' hp, compressBlock_bl, padMarker_bl]

theorem finalPasses_h {s : State} (hwf : s.buf.wf = true) :
    (finalPasses s).h = compressionFunction (hashBeforeLast s) (lastBlock s) := by
  obtain ⟨r, hpass, hh, hread⟩ := finalPasses_eq_lastPass hwf
  rw [hpass, compressBlock_h, hh, compressionFunction_congr _ hread]

/-- The one-block case of the final passes (R145). -/
theorem finalPasses_h_oneBlock {s : State} (hwf : s.buf.wf = true) (hu : (used s).toNat ≤ 55) :
    (finalPasses s).h = compressionFunction s.h (oneBlock s.buf.read (used s).toNat s.bl) := by
  rw [finalPasses_h hwf, hashBeforeLast, if_pos hu]
  exact compressionFunction_congr _ fun p _ => if_pos hu

/-- The two-block case of the final passes (R144). -/
theorem finalPasses_h_twoBlocks {s : State} (hwf : s.buf.wf = true) (hu : 56 ≤ (used s).toNat) :
    (finalPasses s).h = compressionFunction
      (compressionFunction s.h (markerBlock s.buf.read (used s).toNat)) (freshBlock s.bl) := by
  rw [finalPasses_h hwf, hashBeforeLast, if_neg (by omega)]
  exact compressionFunction_congr _ fun p _ => if_neg (by omega)

end Sys2Proof.Machine
end

section
/-! The GDIG command on a block that is not finalized (spec/42_finalize.md R140, R141, R150, R154, R155). -/

namespace Sys2Proof.Machine

/-- With `FIN = 0` an effective GDIG works on the state as it is. -/
theorem exec_gdig_open {cap : Nat} {s : State} (hfin : s.fin = false) (hcap : 4 ≤ cap) :
    exec (.gdig cap) s = .next (emit allDigestWords (finalPasses s)) := by
  rw [exec_gdig_effective hcap, workingState_open hfin]

/-- With four takes ready it sends the four words of its final `H` and is complete (R150, R154). -/
theorem exec_gdig_served {cap : Nat} {s : State} (hfin : s.fin = false) (hcap : 4 ≤ cap)
    (htakes : 4 ≤ s.takes) :
    exec (.gdig cap) s = .next
      { finalPasses s with
        dout := s.dout ++ digestWords (finalPasses s).h
        takes := s.takes - 4
        fin := true
        phase := .idle } := by
  have hready : allDigestWords.length ≤ (finalPasses s).takes := by rwa [finalPasses_takes]
  rw [exec_gdig_open hfin hcap, emit_done hready, finalPasses_dout, finalPasses_takes]
  rfl

/-- Settles O27: an ineffective GDIG sends nothing, an effective one as many of the four words as are taken. -/
theorem gdigCapacityGuard : Obligations.GdigCapacityGuard := by
  refine ⟨fun cap s hcap => exec_gdig_ineffective (Nat.not_le.2 hcap) s, fun cap s t h => ?_⟩
  by_cases hcap : 4 ≤ cap
  · exact ⟨_, exec_gdig_dout hcap h, List.length_take_le' _ _⟩
  · rw [exec_gdig_ineffective hcap] at h
    cases h
    exact ⟨[], (List.append_nil _).symm, Nat.zero_le 4⟩

/-- Settles O29, by the state a served GDIG ends in. -/
theorem gdigSendsDigestWords : Obligations.GdigSendsDigestWords := by
  intro cap s hfin hcap htakes
  have hwords := digestWords_eq_bswap32 (finalPasses s).h
  exact ⟨_, exec_gdig_served hfin hcap htakes, congrArg _ hwords, rfl, rfl, rfl, finalPasses_bl s, finalPasses_cmd s,
    finalPasses_din s, finalPasses_rst s, finalPasses_fresh s⟩

/-- Settles O30: sending leaves `H`, which the one pass has written. -/
theorem gdigOneBlock : Obligations.GdigOneBlock := by
  intro cap s hfin hcap hwf hu
  exact ⟨_, exec_gdig_open hfin hcap, (emit_h _ _).trans (finalPasses_h_oneBlock hwf hu)⟩

/-- Settles O31: sending leaves `H`, which the two passes have written. -/
theorem gdigTwoBlocks : Obligations.GdigTwoBlocks := by
  intro cap s hfin hcap hwf hu
  exact ⟨_, exec_gdig_open hfin hcap, (emit_h _ _).trans (finalPasses_h_twoBlocks hwf hu)⟩

/-- Settles O32: sending leaves what the pass over the last block has written. -/
theorem gdigEndState : Obligations.GdigEndState := by
  intro cap s hfin hcap hwf
  obtain ⟨r, hpass, hh, hread⟩ := finalPasses_eq_lastPass hwf
  obtain ⟨hsentH, hsentBl, hsentBuf, hsentM, hsentW, hsentI, -⟩ := emit_frame allDigestWords (finalPasses s)
  refine ⟨_, r.h, exec_gdig_open hfin hcap, ?_, fun p hp => ?_, hh, ?_, ?_, ?_, ?_⟩
  · rw [hsentBl, finalPasses_bl]
  · rw [hsentBuf, hpass, compressBlock_buf, hread p hp, lastBlock]
  · rw [hsentM, hsentBuf, hpass, compressBlock_m, compressBlock_buf]
  · rw [hsentW, hsentM, hpass, compressBlock_eq]
  · rw [hsentH, hsentW, hpass, compressBlock_eq, compressionFunction]
  · rw [hsentI, hpass, compressBlock_eq]

end Sys2Proof.Machine
end

section
/-! The padding of a message (spec/42_finalize.md R149): its bytes, the blocks they make behind the complete blocks
of the message, and the chaining over them (R158). -/

namespace Sys2Proof.Machine

/-! ### The bytes of the padded message -/

/-- Byte `t` of `LE64(v)` is that of the counter that stands for `v` modulo 2^64 (R57, R149). -/
theorem le64_getD (v : Nat) {t : Nat} (ht : t < 8) :
    (le64 v).getD t 0x00#8 = lengthByte (BitVec.ofNat 64 v) t := by
  rw [le64, leBytes_getD 8 v t ht, lengthByte]
  apply BitVec.eq_of_getLsbD_eq
  intro i hi
  have hbit : 8 * t + i < 64 := by omega
  rw [show 256 = 2 ^ 8 from rfl, ← Nat.pow_mul, BitVec.getLsbD_ofNat, Nat.testBit_div_two_pow,
    BitVec.getLsbD_extractLsb', BitVec.getLsbD_ofNat, Nat.add_comm i, decide_eq_true hbit, Bool.true_and]

/-- The message comes first in its padding. -/
theorem pad_getD_message (msg : List Byte) {j : Nat} (hj : j < msg.length) :
    (pad msg).getD j 0x00#8 = msg.getD j 0x00#8 := by
  rw [pad, List.append_assoc, List.append_assoc, List.getD_append _ _ _ _ hj]

/-- What stands behind the message: the marker, the zeros, the length. -/
theorem pad_getD_behind (msg : List Byte) (k : Nat) :
    (pad msg).getD (msg.length + k) 0x00#8 =
      (0x80#8 :: (List.replicate (padZeros msg.length) 0x00#8 ++ le64 (8 * msg.length))).getD k 0x00#8 := by
  rw [pad, List.append_assoc, List.append_assoc, List.getD_append_right _ _ _ _ (Nat.le_add_right _ _),
    Nat.add_sub_cancel_left]
  rfl

/-- The marker stands behind the message. -/
theorem pad_getD_marker (msg : List Byte) : (pad msg).getD msg.length 0x00#8 = 0x80#8 :=
  pad_getD_behind msg 0

/-- Zeros stand between the marker and the length. -/
theorem pad_getD_zero (msg : List Byte) {j : Nat} (hj : msg.length < j)
    (hj' : j ≤ msg.length + padZeros msg.length) : (pad msg).getD j 0x00#8 = 0x00#8 := by
  obtain ⟨k, rfl⟩ : ∃ k, j = msg.length + (k + 1) := ⟨j - msg.length - 1, by omega⟩
  rw [pad_getD_behind, List.getD_cons_succ, List.getD_append _ _ _ _ (by rw [List.length_replicate]; omega),
    List.getD_replicate _ (by omega)]

/-- The bytes of the bit count stand behind the zeros. -/
theorem pad_getD_length (msg : List Byte) {t : Nat} (ht : t < 8) :
    (pad msg).getD (msg.length + padZeros msg.length + 1 + t) 0x00#8 =
      lengthByte (BitVec.ofNat 64 (8 * msg.length)) t := by
  rw [show msg.length + padZeros msg.length + 1 + t = msg.length + (padZeros msg.length + t + 1) by omega,
    pad_getD_behind, List.getD_cons_succ,
    List.getD_append_right _ _ _ _ (by rw [List.length_replicate]; omega), List.length_replicate,
    Nat.add_sub_cancel_left, le64_getD _ ht]

theorem pad_length (msg : List Byte) : (pad msg).length = msg.length + padZeros msg.length + 9 := by
  simp only [pad, le64, List.length_append, List.length_singleton, List.length_replicate, leBytes_length]
  omega

/-! ### The blocks of the padding -/

/-- Up to the length, the block behind the complete blocks is the rest of the message, the marker and zeros. -/
theorem blockAt_pad_marked (msg : List Byte) {p : Nat}
    (hp : 64 * (msg.length / 64) + p ≤ msg.length + padZeros msg.length) :
    blockAt (pad msg) (msg.length / 64) p =
      markerBlock (blockAt msg (msg.length / 64)) (msg.length % 64) p := by
  rw [blockAt, markerBlock]
  rcases lt_trichotomy p (msg.length % 64) with hlt | rfl | hgt
  · rw [if_pos hlt, pad_getD_message _ (by omega), blockAt]
  · rw [if_neg (by omega), if_pos rfl, Nat.div_add_mod, pad_getD_marker]
  · rw [if_neg (by omega), if_neg (by omega), pad_getD_zero _ (by omega) (by omega)]

/-- The last block of the padding ends with the length. -/
theorem blockAt_pad_length {msg : List Byte} {q : Nat} (hq : (pad msg).length = 64 * q + 64) {p : Nat}
    (hp : 56 ≤ p) (hp' : p < 64) :
    blockAt (pad msg) q p = lengthByte (BitVec.ofNat 64 (8 * msg.length)) (p - 56) := by
  rw [pad_length] at hq
  rw [← pad_getD_length _ (by omega), blockAt]
  exact congrArg (fun n => (pad msg).getD n 0x00#8) (by omega)

/-- With at most 55 bytes behind its complete blocks the message is padded to one more block. -/
theorem blockAt_pad_oneBlock {msg : List Byte} (hu : msg.length % 64 ≤ 55) {p : Nat} (hp : p < 64) :
    blockAt (pad msg) (msg.length / 64) p =
      oneBlock (blockAt msg (msg.length / 64)) (msg.length % 64) (BitVec.ofNat 64 (8 * msg.length)) p := by
  have hz : padZeros msg.length = 55 - msg.length % 64 := by rw [padZeros]; omega
  rw [oneBlock_eq_markerBlock hu]
  by_cases hlen : p < 56
  · rw [if_pos hlen, blockAt_pad_marked _ (by omega)]
  · rw [if_neg hlen, blockAt_pad_length (by rw [pad_length]; omega) (by omega) hp]

/-- With more the message is padded to two blocks, and the first holds no length. -/
theorem blockAt_pad_markerBlock {msg : List Byte} (hu : 56 ≤ msg.length % 64) {p : Nat} (hp : p < 64) :
    blockAt (pad msg) (msg.length / 64) p =
      markerBlock (blockAt msg (msg.length / 64)) (msg.length % 64) p :=
  blockAt_pad_marked _ (by rw [padZeros]; omega)

/-- The second of the two blocks is zeros and the length. -/
theorem blockAt_pad_freshBlock {msg : List Byte} (hu : 56 ≤ msg.length % 64) {p : Nat} (hp : p < 64) :
    blockAt (pad msg) (msg.length / 64 + 1) p = freshBlock (BitVec.ofNat 64 (8 * msg.length)) p := by
  have hz : padZeros msg.length = 119 - msg.length % 64 := by rw [padZeros]; omega
  rw [freshBlock]
  by_cases hlen : p < 56
  · rw [if_pos hlen, blockAt, pad_getD_zero _ (by omega) (by omega)]
  · rw [if_neg hlen, blockAt_pad_length (by rw [pad_length]; omega) (by omega) hp]

/-! ### The chaining over the padding -/

/-- The padding is chained on from the value of the message's complete blocks. -/
theorem messageHash_eq_foldl {msg : List Byte} {n : Nat} (h : (pad msg).length / 64 = msg.length / 64 + n) :
    messageHash msg = (List.range n).foldl
      (fun h q => compressionFunction h (blockAt (pad msg) (msg.length / 64 + q))) (chain iv msg) := by
  obtain ⟨tail, htail⟩ : ∃ tail, pad msg = msg ++ tail :=
    ⟨_, by rw [pad, List.append_assoc, List.append_assoc]⟩
  rw [messageHash, chain, h, List.range_add, List.foldl_append, List.foldl_map, htail, chain_completeBlocks]

/-- The hash of a message whose padding fits its last block. -/
theorem messageHash_oneBlock {msg : List Byte} (hu : msg.length % 64 ≤ 55) :
    messageHash msg = compressionFunction (chain iv msg)
      (oneBlock (blockAt msg (msg.length / 64)) (msg.length % 64) (BitVec.ofNat 64 (8 * msg.length))) := by
  have hlen : (pad msg).length / 64 = msg.length / 64 + 1 := by rw [pad_length, padZeros]; omega
  rw [messageHash_eq_foldl hlen]
  exact compressionFunction_congr _ fun p hp => blockAt_pad_oneBlock hu hp

/-- The hash of a message whose padding takes a further block. -/
theorem messageHash_twoBlocks {msg : List Byte} (hu : 56 ≤ msg.length % 64) :
    messageHash msg = compressionFunction
      (compressionFunction (chain iv msg) (markerBlock (blockAt msg (msg.length / 64)) (msg.length % 64)))
      (freshBlock (BitVec.ofNat 64 (8 * msg.length))) := by
  have hlen : (pad msg).length / 64 = msg.length / 64 + 2 := by rw [pad_length, padZeros]; omega
  rw [messageHash_eq_foldl hlen,
    ← compressionFunction_congr _ fun p hp => blockAt_pad_markerBlock hu hp,
    ← compressionFunction_congr _ fun p hp => blockAt_pad_freshBlock hu hp]
  rfl

end Sys2Proof.Machine
end

section
/-! The digest of a message (spec/42_finalize.md R149, R158) and of a whole session (spec/70_reset R238). -/

namespace Sys2Proof.Machine

/-! ### An effective GDIG on a block that holds a message -/

/-- The padded blocks depend on the valid bytes only (R27, R148). -/
theorem oneBlock_congr {f g : Nat → Byte} {u : Nat} (h : ∀ p, p < u → f p = g p) (bl : Counter) (p : Nat) :
    oneBlock f u bl p = oneBlock g u bl p :=
  ite_congr rfl (h p) fun _ => rfl

theorem markerBlock_congr {f g : Nat → Byte} {u : Nat} (h : ∀ p, p < u → f p = g p) (p : Nat) :
    markerBlock f u p = markerBlock g u p :=
  ite_congr rfl (h p) fun _ => rfl

/-- The final passes on a block that holds a message end with the message's hash in `H` (R149, R158). -/
theorem Holds.finalPasses_h {msg : List Byte} {s : State} (h : Holds msg s) :
    (finalPasses s).h = messageHash msg := by
  obtain ⟨-, -, hbl, hwf, hh, hread⟩ := (holds_iff msg s).1 h
  have hused : (used s).toNat = msg.length % 64 := by rw [used, hbl, usedOf_bitCount, BitVec.toNat_ofNat]
  by_cases hu : msg.length % 64 ≤ 55
  · rw [finalPasses_h_oneBlock hwf (by rwa [hused]), messageHash_oneBlock hu, hused, hbl, hh]
    exact compressionFunction_congr _ fun p _ => oneBlock_congr hread _ p
  · have hu' : 56 ≤ msg.length % 64 := by omega
    rw [finalPasses_h_twoBlocks hwf (by rwa [hused]), messageHash_twoBlocks hu', hused, hbl, hh,
      compressionFunction_congr _ fun p _ => markerBlock_congr hread p]

/-- An effective GDIG with four takes ready sends the digest words of the message's hash, sets `FIN` and leaves
DIN. -/
theorem Holds.gdig_sends {msg : List Byte} {cap : Nat} {s : State} (h : Holds msg s) (hcap : 4 ≤ cap)
    (htakes : 4 ≤ s.takes) :
    ∃ t, exec (.gdig cap) s = .next t ∧ t.dout = s.dout ++ digestWords (messageHash msg) ∧ t.fin = true ∧
      t.din = s.din := by
  obtain ⟨-, hfin, -⟩ := (holds_iff msg s).1 h
  exact ⟨_, exec_gdig_served hfin hcap htakes, by rw [h.finalPasses_h], rfl, finalPasses_din s⟩

/-- Settles O55: the words sent are those of the message's hash, and their bytes its MD5. -/
theorem gdigSendsMessageDigest : Obligations.GdigSendsMessageDigest := by
  intro msg cap s h hcap htakes
  obtain ⟨t, hexec, hdout, -, -⟩ := h.gdig_sends hcap htakes
  exact ⟨t, _, hexec, hdout, rfl, wordBytes_digestWords _⟩

/-! ### A session -/

theorem execAll_cons {i : Instr} {rest : List Instr} {s t : State} (h : exec i s = .next t) :
    execAll (i :: rest) s = execAll rest t := by rw [execAll, h]

/-- A command of a body is no effective GDIG (R238). -/
theorem ineffective_of_bodyCommand {i : Instr} (h : bodyCommand i = true) :
    ¬ ∃ cap, i = .gdig cap ∧ 4 ≤ cap := by
  rintro ⟨cap, rfl, hcap⟩
  rw [bodyCommand, (capacitySuffices_iff cap).2 hcap] at h
  exact Bool.false_ne_true h

/-- All but an effective GDIG leave the takes at the DOUT port (R75). -/
theorem exec_takes {i : Instr} {s t : State} (hi : ¬ ∃ cap, i = .gdig cap ∧ 4 ≤ cap)
    (h : exec i s = .next t) : t.takes = s.takes := by
  cases i with
  | init => cases h; rfl
  | pbyte b => cases h; simp
  | pbytes len =>
    cases h
    obtain ⟨-, -, -, htakes, -⟩ :=
      absorb_frame len (used (pbytesState len s)) (advanceCounter (pbytesState len s) len)
    simp [htakes]
  | gdig cap =>
    rw [exec_gdig_ineffective fun hcap => hi ⟨cap, rfl, hcap⟩] at h
    cases h
    rfl

theorem dataNeeded_cons (i : Instr) (rest : List Instr) :
    dataNeeded (i :: rest) = dataNeeded [i] + dataNeeded rest :=
  dataNeeded_append [i] rest

/-- The message goes on from what the first command makes of it. -/
theorem messageAfter_cons (msg : List Byte) (i : Instr) (rest : List Instr) (data : List Byte) :
    messageAfter msg (i :: rest) data =
      messageAfter (messageAfter msg [i] data) rest (data.drop (dataNeeded [i])) := by
  cases i <;> rfl

/-- A command of a body makes of the message held what R238 says, and takes its bytes. -/
theorem Holds.exec_body {msg : List Byte} {i : Instr} {s : State} (h : Holds msg s)
    (hi : bodyCommand i = true) (hdata : dataNeeded [i] ≤ s.din.length) :
    ∃ t, exec i s = .next t ∧ Holds (messageAfter msg [i] s.din) t ∧ t.din = s.din.drop (dataNeeded [i]) := by
  cases i with
  | init => exact ⟨_, rfl, holds_nil rfl rfl rfl rfl rfl, rfl⟩
  | pbyte b =>
    obtain ⟨t, hexec, ht⟩ := h.pbyte_snoc b
    exact ⟨t, hexec, ht, exec_din (by simp) hexec⟩
  | pbytes len =>
    obtain ⟨t, hexec, ht, hdin⟩ := h.pbytes_append (List.take_append_drop len s.din).symm
    have hlen : (s.din.take len).length = len := List.length_take_of_le hdata
    rw [hlen] at hexec
    exact ⟨t, hexec, ht, hdin⟩
  | gdig cap =>
    exact ⟨s, exec_gdig_ineffective (fun hcap => ineffective_of_bodyCommand hi ⟨cap, rfl, hcap⟩) s, h, rfl⟩

/-- A body runs through, whatever follows it, and leaves the block holding the message it makes, with its bytes
taken from DIN and the DOUT port untouched. -/
theorem Holds.execAll_body {msg : List Byte} {body : List Instr} {s : State} (h : Holds msg s)
    (hbody : body.all bodyCommand = true) (hdata : dataNeeded body ≤ s.din.length) :
    ∃ t, (∀ rest, execAll (body ++ rest) s = execAll rest t) ∧ Holds (messageAfter msg body s.din) t ∧
      t.din = s.din.drop (dataNeeded body) ∧ t.takes = s.takes ∧ t.dout = s.dout := by
  induction body generalizing msg s with
  | nil => exact ⟨s, fun _ => rfl, h, rfl, rfl, rfl⟩
  | cons i body ih =>
    obtain ⟨hi, hbody⟩ := Bool.and_eq_true_iff.1 hbody
    rw [dataNeeded_cons] at hdata ⊢
    obtain ⟨t, hexec, ht, hdin⟩ := h.exec_body hi (by omega)
    obtain ⟨u, hrest, hu, hdin', htakes, hdout⟩ := ih ht hbody (by rw [hdin, List.length_drop]; omega)
    have hne := ineffective_of_bodyCommand hi
    refine ⟨u, fun rest => ?_, ?_, ?_, htakes.trans (exec_takes hne hexec), hdout.trans (exec_dout hne hexec)⟩
    · rw [List.cons_append, execAll_cons hexec, hrest]
    · rwa [messageAfter_cons, ← hdin]
    · rw [hdin', hdin, List.drop_drop]

/-- Settles O56: INIT and the body leave the block holding the message, whose digest the last GDIG sends. -/
theorem sessionSendsMd5 : Obligations.SessionSendsMd5 := by
  intro body cap s hbody hdata hcap htakes
  have hinit : Holds [] (initialState s) := holds_nil rfl rfl rfl rfl rfl
  obtain ⟨t, hrun, ht, hdin, htakes', hdout⟩ := hinit.execAll_body hbody hdata
  obtain ⟨u, hexec, hsent, hfin, hdin'⟩ := ht.gdig_sends hcap (htakes'.symm ▸ htakes)
  refine ⟨u, _, ?_, hsent.trans (congrArg (· ++ _) hdout), wordBytes_digestWords _, hfin, hdin'.trans hdin⟩
  rw [execAll_cons (exec_init s), hrun, execAll_cons hexec, execAll]

end Sys2Proof.Machine
end

section
/-! The parts of a pass (spec/43_compress.md): the rotation as a number and by its bits (R193), the stage functions bit
by bit (R173), the sum of a round (R175), the word selection (R174), and what a pass depends on (R177, R178). -/

namespace Sys2Proof.Machine

/-- By an amount below 32 the model's rotation is the library's. -/
theorem rotl_eq_rotateLeft (x : Word) {n : Nat} (hn : n < 32) : rotl x n = x.rotateLeft n := by
  rw [BitVec.rotateLeft_def, Nat.mod_eq_of_lt hn]
  rfl

/-- The two shifted parts share no bit, so their union is their sum (R193). -/
theorem rotl_toNat (x : Word) {n : Nat} (hn : n ≤ 32) :
    (rotl x n).toNat = (x.toNat * 2 ^ n) % 2 ^ 32 + x.toNat / 2 ^ (32 - n) := by
  have hpow : 2 ^ 32 = 2 ^ n * 2 ^ (32 - n) := by rw [← Nat.pow_add, Nat.add_sub_cancel' hn]
  have hlow : x.toNat / 2 ^ (32 - n) < 2 ^ n := Nat.div_lt_of_lt_mul (by rw [Nat.mul_comm, ← hpow]; exact x.isLt)
  have hhigh : x.toNat * 2 ^ n % 2 ^ 32 = 2 ^ n * (x.toNat % 2 ^ (32 - n)) := by
    rw [Nat.mul_comm, hpow, Nat.mul_mod_mul_left]
  rw [rotl, BitVec.toNat_or, BitVec.toNat_shiftLeft, BitVec.toNat_ushiftRight, Nat.shiftLeft_eq,
    Nat.shiftRight_eq_div_pow, hhigh, Nat.two_pow_add_eq_or_of_lt hlow]

/-- Bit `k` moves to bit `(k + n) mod 32` (R193). -/
theorem rotl_getLsbD (x : Word) {n k : Nat} (hn : n < 32) (hk : k < 32) :
    (rotl x n).getLsbD ((k + n) % 32) = x.getLsbD k := by
  rw [rotl_eq_rotateLeft x hn, BitVec.getLsbD_rotateLeft, Nat.mod_eq_of_lt hn]
  by_cases hwrap : k + n < 32
  · have hge : ¬ k + n < n := by omega
    rw [Nat.mod_eq_of_lt hwrap, decide_eq_false hge, cond_false, decide_eq_true hwrap, Bool.true_and,
      Nat.add_sub_cancel]
  · have hmod : (k + n) % 32 = k + n - 32 := by omega
    have hlt : k + n - 32 < n := by omega
    have hback : 32 - n + (k + n - 32) = k := by omega
    rw [hmod, decide_eq_true hlt, cond_true, hback]

/-- Settles O39, by the sum of the disjoint shifts and the movement of each bit. -/
theorem rotationFormula : Obligations.RotationFormula := fun x n _ hn =>
  ⟨rotl_toNat x (by omega), fun _ hk => rotl_getLsbD x (by omega) hk⟩

theorem stageFunction_stage1 {i : RoundIndex} (hi : i.toNat ≤ 15) (b c d : Word) :
    stageFunction i b c d = (b &&& c) ||| (~~~b &&& d) := if_pos hi

theorem stageFunction_stage2 {i : RoundIndex} (hlo : 16 ≤ i.toNat) (hhi : i.toNat ≤ 31) (b c d : Word) :
    stageFunction i b c d = (d &&& b) ||| (~~~d &&& c) := by
  rw [stageFunction, if_neg (by omega), if_pos hhi]

theorem stageFunction_stage3 {i : RoundIndex} (hlo : 32 ≤ i.toNat) (hhi : i.toNat ≤ 47) (b c d : Word) :
    stageFunction i b c d = b ^^^ c ^^^ d := by
  rw [stageFunction, if_neg (by omega), if_neg (by omega), if_pos hhi]

theorem stageFunction_stage4 {i : RoundIndex} (hi : 48 ≤ i.toNat) (b c d : Word) :
    stageFunction i b c d = c ^^^ (b ||| ~~~d) := by
  rw [stageFunction, if_neg (by omega), if_neg (by omega), if_neg (by omega)]

/-- Masking `y` by `x` and `z` by its complement selects between them bit by bit: stages 1 and 2 (R173). -/
theorem getLsbD_select (x y z : Word) {k : Nat} (hk : k < 32) :
    ((x &&& y) ||| (~~~x &&& z)).getLsbD k = if x.getLsbD k then y.getLsbD k else z.getLsbD k := by
  rw [BitVec.getLsbD_or, BitVec.getLsbD_and, BitVec.getLsbD_and, BitVec.getLsbD_not, decide_eq_true hk]
  cases x.getLsbD k <;> simp

/-- Settles O40: stages 1 and 2 are selections, stages 3 and 4 are read off their operators. -/
theorem stageFunctionBits : Obligations.StageFunctionBits := by
  intro i b c d k hk
  refine ⟨fun hi => ?_, fun hlo hhi => ?_, fun hlo hhi => ?_, fun hi => ?_⟩
  · rw [stageFunction_stage1 hi, getLsbD_select b c d hk]
  · rw [stageFunction_stage2 hlo hhi, getLsbD_select d b c hk]
  · rw [stageFunction_stage3 hlo hhi, BitVec.getLsbD_xor, BitVec.getLsbD_xor]
  · rw [stageFunction_stage4 hi, BitVec.getLsbD_xor, BitVec.getLsbD_or, BitVec.getLsbD_not, decide_eq_true hk,
      Bool.true_and]

/-- Settles O44: the closed form of a pass reads `H` and, through the schedule, the 64 bytes of the block. -/
theorem passIsPure : Obligations.PassIsPure := by
  intro s t hh hbuf
  rw [compressBlock_eq s, compressBlock_eq t, hh, schedule_congr hbuf, compressionFunction_congr t.h hbuf]

/-- The sum of a round as a number: reducing once at the end is reducing at each addition (R175). -/
theorem roundSum_toNat (m : Vector Word 16) (i : RoundIndex) (q : Quad) :
    (roundSum m i q).toNat =
      ((stageFunction i q.b q.c q.d).toNat + q.a.toNat + (roundConstant i).toNat + m[wordSelect i].toNat) % 2 ^ 32 := by
  simp only [roundSum, BitVec.toNat_add, Nat.mod_add_mod]

/-- Settles O38: the sum as a number, and the registers as the round writes them. -/
theorem roundWritesRegisters : Obligations.RoundWritesRegisters := fun m i q =>
  ⟨roundSum_toNat m i q, rfl, rfl, rfl, rfl⟩

/-- Settles O41, by evaluating the 64 selections (R174). -/
theorem wordSelectionLists : Obligations.WordSelectionLists := by
  unfold Obligations.WordSelectionLists
  decide

end Sys2Proof.Machine
end

section
/-! No exceptions (spec/60_exceptions.md R200, R209): every command, in every state, has a next state, and so has
every step, whichever of its branches is taken. -/

namespace Sys2Proof.Machine

/-- No command faults or is refused, whatever its operand and the state (R200, R209). -/
theorem exec_answers (i : Instr) (s : State) : ∃ t, exec i s = .next t := by
  cases i with
  | init => exact ⟨_, exec_init s⟩
  | pbyte b => exact ⟨_, exec_pbyte b s⟩
  | pbytes len => exact ⟨_, exec_pbytes len s⟩
  | gdig cap =>
    by_cases hcap : 4 ≤ cap
    · exact ⟨_, exec_gdig_effective hcap s⟩
    · exact ⟨_, exec_gdig_ineffective hcap s⟩

/-- An idle block that is offered no word stays as it is (R233). -/
theorem step_of_cmd_nil {s : State} (hrst : s.rst = false) (hidle : s.phase = .idle) (hcmd : s.cmd = []) :
    step s = .next s := by
  have hnone : cmdPop s = .nothing := by simp only [cmdPop, hcmd]
  simp [step, hrst, hidle, hnone]

/-- Settles O9, branch by branch: the reset event, the command in progress, no word on offer, a reserved word, and
a command, where every command answers. -/
theorem everyStepAnswersNextState : Obligations.EveryStepAnswersNextState := by
  intro s
  cases hrst : s.rst with
  | true => exact ⟨_, step_of_rst hrst⟩
  | false =>
    by_cases hidle : s.phase = .idle
    · cases hcmd : s.cmd with
      | nil => exact ⟨s, step_of_cmd_nil hrst hidle hcmd⟩
      | cons w rest =>
        cases hdec : decode w with
        | error why => exact ⟨_, stepDiscardsReservedWord s w rest why hrst hidle hcmd hdec⟩
        | ok i =>
          rw [stepRunsDecodedCommand s w rest i hrst hidle hcmd hdec]
          exact exec_answers i _
    · exact ⟨_, step_busy hrst hidle⟩

end Sys2Proof.Machine
end

section
/-! Completion (spec/70_reset_and_hazards.md R250): every action of the sequencer brings a command that is neither
complete nor waiting for the host nearer to its end, so the finer view of R16 and R180 ends where a step ends. -/

namespace Sys2Proof.Machine

/-! ### How far a command is from its end -/

/-- The actions of a pass from a part of it on: the load, a round for each index from `i` on, the add (R180). -/
def PassPart.ticks (i : RoundIndex) : PassPart → Nat
  | .load => 66
  | .round => 65 - i.toNat
  | .add => 1

/-- A bound on the actions that follow a pass: each byte still to come may make a pass of 66 actions due, the fresh
block needs one, and each digest word is an action. -/
def After.ticks : After → Nat
  | .absorb size => 67 * size + 1
  | .padding => 1 + 66 + 4
  | .emit => 4

/-- A bound on the actions that a command in a phase still takes, the round index being `i`. -/
def Phase.ticks (i : RoundIndex) : Phase → Nat
  | .idle => 0
  | .absorb _ size => 67 * size + 1
  | .absorbByte _ _ => 67 * 1 + 1
  | .compress part after => part.ticks i + after.ticks
  | .padding .marker => 1 + 66 + (1 + 66 + 4)
  | .padding .fresh => 1 + 66 + 4
  | .emit k => 4 - k.val

/-- A bound on the actions that the command in progress still takes. -/
def ticksLeft (s : State) : Nat := s.phase.ticks s.i

theorem ticksLeft_of_phase {s : State} {p : Phase} (h : s.phase = p) : ticksLeft s = p.ticks s.i := by
  rw [ticksLeft, h]

@[simp] theorem ticksLeft_enter (p : Phase) (s : State) : ticksLeft (enter p s) = p.ticks s.i := rfl

theorem After.ticks_phase (after : After) (i : RoundIndex) : after.phase.ticks i = after.ticks := by
  cases after <;> rfl

/-! ### Every action is progress -/

/-- Once a byte is copied, what is left is the bytes still to come, behind a pass if the byte filled the block. -/
theorem ticksLeft_byteCopied (pos : Offset) (size : Nat) (s : State) :
    ticksLeft (enter (if pos = 63#6 then .compress .load (.absorb size) else .absorb (pos + 1) size) s) ≤
      67 * size + 67 := by
  rw [ticksLeft_enter]
  split
  · simp only [Phase.ticks, PassPart.ticks, After.ticks]
    omega
  · simp only [Phase.ticks]
    omega

/-- A round leaves one action less of the pass; after the round numbered 63 it is the add. -/
theorem PassPart.ticks_roundStep (i : RoundIndex) :
    PassPart.ticks (nextRound i) (if i = 63#6 then .add else .round) < PassPart.ticks i .round := by
  by_cases hi : i = 63#6
  · subst hi
    decide
  · have hlt : i.toNat < 63 := by bv_omega
    rw [if_neg hi, PassPart.ticks, PassPart.ticks, nextRound_toNat hlt]
    omega

/-- While a PBYTES does not wait for a byte, an action copies one or ends the command. -/
theorem ticksLeft_tick_absorb {s : State} {pos : Offset} {size : Nat} (h : s.phase = .absorb pos size)
    (hgoes : finish s ≠ s) : ticksLeft (tick s) < ticksLeft s := by
  rw [ticksLeft_of_phase h, Phase.ticks]
  cases size with
  | zero => simp [tick, h, Phase.ticks]
  | succ size =>
    cases hd : s.din with
    | nil =>
      have hwaits : finish s = s := by
        rw [finish_of_phase h, finish_enter_absorb, absorb_wait hd, ← h, enter_self]
      exact absurd hwaits hgoes
    | cons b rest =>
      have hle := ticksLeft_byteCopied pos size (setBuf (dinPop s rest) pos.toNat b)
      simp only [tick, h, hd]
      omega

theorem ticksLeft_tick_absorbByte {s : State} {pos : Offset} {b : Byte} (h : s.phase = .absorbByte pos b) :
    ticksLeft (tick s) < ticksLeft s := by
  have hle := ticksLeft_byteCopied pos 0 (setBuf s pos.toNat b)
  rw [ticksLeft_of_phase h, Phase.ticks]
  simp only [tick, h]
  omega

/-- Each part of a pass is progress, and so is going on from its end. -/
theorem ticksLeft_tick_compress {s : State} {part : PassPart} {after : After}
    (h : s.phase = .compress part after) : ticksLeft (tick s) < ticksLeft s := by
  rw [ticksLeft_of_phase h, Phase.ticks]
  cases part with
  | load => simp [tick, h, Phase.ticks, PassPart.ticks]
  | round =>
    have hround := PassPart.ticks_roundStep s.i
    simp only [tick, h, ticksLeft_enter, Phase.ticks, roundStep_i]
    omega
  | add =>
    simp only [tick, h, ticksLeft_enter, After.ticks_phase, PassPart.ticks]
    omega

theorem ticksLeft_tick_padding {s : State} {block : PadBlock} (h : s.phase = .padding block) :
    ticksLeft (tick s) < ticksLeft s := by
  rw [ticksLeft_of_phase h]
  cases block with
  | marker =>
    simp only [tick, h, ticksLeft_enter]
    split <;> simp [Phase.ticks, PassPart.ticks, After.ticks]
  | fresh => simp [tick, h, Phase.ticks, PassPart.ticks, After.ticks]

/-- While a GDIG does not wait for a take, an action sends a word. -/
theorem ticksLeft_tick_emit {s : State} {k : Fin 4} (h : s.phase = .emit k) (hgoes : finish s ≠ s) :
    ticksLeft (tick s) < ticksLeft s := by
  have htakes : s.takes ≠ 0 := fun ht => hgoes (by
    rw [finish_of_phase h, finish_enter_emit, allDigestWords_drop, emit, if_pos ht, ← h, enter_self])
  rw [ticksLeft_of_phase h, Phase.ticks]
  by_cases hk : k = 3
  · subst hk
    simp [tick, h, htakes, Phase.ticks]
  · have hnext : (k + 1).val = k.val + 1 := by omega
    simp only [tick, h, if_neg htakes, if_neg hk, ticksLeft_enter, Phase.ticks, hnext]
    omega

/-- Where the rest of the command does anything, an action is progress. -/
theorem ticksLeft_tick {s : State} (hgoes : finish s ≠ s) : ticksLeft (tick s) < ticksLeft s := by
  cases h : s.phase with
  | idle => exact absurd (by rw [finish, h]) hgoes
  | absorb pos size => exact ticksLeft_tick_absorb h hgoes
  | absorbByte pos b => exact ticksLeft_tick_absorbByte h
  | compress part after => exact ticksLeft_tick_compress h
  | padding block => exact ticksLeft_tick_padding h
  | emit k => exact ticksLeft_tick_emit h hgoes

/-- Finitely many actions lead to where the command in progress ends or waits, from any state (R16, R180). -/
theorem exists_ticks_eq_finish (s : State) : ∃ n, tick^[n] s = finish s := by
  induction hleft : ticksLeft s using Nat.strong_induction_on generalizing s with
  | _ left ih =>
    by_cases hgoes : finish s = s
    · exact ⟨0, hgoes.symm⟩
    · obtain ⟨n, hn⟩ := ih _ (hleft ▸ ticksLeft_tick hgoes) (tick s) rfl
      exact ⟨n + 1, by rw [Function.iterate_succ_apply, hn, tickKeepsTheOutcome]⟩

/-! ### A command that is served -/

/-- A command ends idle where the host has offered what it consumes (R241, R242). -/
theorem exec_served_idle {i : Instr} {s t : State} (hidle : s.phase = .idle) (hserved : portsServe i s = true)
    (h : exec i s = .next t) : t.phase = .idle := by
  cases i with
  | init => cases h; rfl
  | pbyte b => cases h; rfl
  | pbytes len => rw [exec_pbytes_phase h, if_pos (of_decide_eq_true hserved)]
  | gdig cap =>
    by_cases hcap : 4 ≤ cap
    · have htakes : 4 ≤ s.takes := by simpa [portsServe, (capacitySuffices_iff cap).2 hcap] using hserved
      have hready : allDigestWords.length ≤ (finalPasses (workingState s)).takes := by
        rwa [finalPasses_takes, workingState_takes]
      rw [exec_gdig_effective hcap, emit_done hready] at h
      cases h
      rfl
    · rw [exec_gdig_ineffective hcap] at h
      cases h
      exact hidle

/-- Settles O49: the actions reach where the command run as one step ends, and a served command ends idle. -/
theorem servedCommandsComplete : Obligations.ServedCommandsComplete := by
  intro i s hidle hserved
  have hexec := commandIsStartThenFinish i s hidle
  obtain ⟨n, hn⟩ := exists_ticks_eq_finish (start i s)
  rw [← hn] at hexec
  exact ⟨n, exec_served_idle hidle hserved hexec, hexec⟩

end Sys2Proof.Machine
end

section
/-! Runs without a use after finalization (spec/60_exceptions.md R204; spec/70_reset_and_hazards.md R238): only such
a use draws free values (logs 5 and 22). -/

namespace Sys2Proof.Machine

/-! ### Uses after finalization -/

@[simp] theorem usesAfterFinalize_init (s : State) : usesAfterFinalize .init s = false := Bool.and_false _
@[simp] theorem usesAfterFinalize_pbyte (b : Byte) (s : State) : usesAfterFinalize (.pbyte b) s = s.fin :=
  Bool.and_true _
@[simp] theorem usesAfterFinalize_pbytes (len : Nat) (s : State) : usesAfterFinalize (.pbytes len) s = s.fin :=
  Bool.and_true _

theorem usesAfterFinalize_gdig (cap : Nat) (s : State) :
    usesAfterFinalize (.gdig cap) s = (s.fin && capacitySuffices cap) := rfl

/-- A command that is no use after finalization draws no free value. -/
theorem exec_fresh {i : Instr} {s t : State} (huse : usesAfterFinalize i s = false) (h : exec i s = .next t) :
    t.fresh = s.fresh := by
  cases i with
  | init => cases h; rfl
  | pbyte b =>
    rw [usesAfterFinalize_pbyte] at huse
    cases h
    rw [enter_fresh, storeByte_fresh, advanceCounter_fresh, workingState_open huse]
  | pbytes len =>
    rw [usesAfterFinalize_pbytes] at huse
    obtain ⟨-, -, -, -, -, -, hfresh⟩ := absorb_frame len (used s) (advanceCounter s len)
    rw [exec_pbytes_open huse] at h
    cases h
    exact hfresh
  | gdig cap =>
    by_cases hcap : 4 ≤ cap
    · rw [usesAfterFinalize_gdig, (capacitySuffices_iff cap).2 hcap, Bool.and_true] at huse
      obtain ⟨-, -, -, -, -, -, -, -, -, hfresh⟩ := emit_frame allDigestWords (finalPasses s)
      rw [exec_gdig_open huse hcap] at h
      cases h
      rw [hfresh, finalPasses_fresh]
    · rw [exec_gdig_ineffective hcap] at h
      cases h
      rfl

/-! ### Harmless sequences -/

/-- Every sequence of the grammar of R238 is harmless. -/
theorem harmlessFrom_of_legalFrom {fin : Bool} {cs : List Instr} (h : legalFrom fin cs = true) :
    harmlessFrom fin cs = true := by
  induction cs generalizing fin with
  | nil => rfl
  | cons i rest ih =>
    cases i with
    | init => exact ih (fin := false) h
    | pbyte b =>
      obtain ⟨hopen, hrest⟩ := Bool.and_eq_true_iff.1 h
      exact Bool.and_eq_true_iff.2 ⟨hopen, ih hrest⟩
    | pbytes len =>
      obtain ⟨hopen, hrest⟩ := Bool.and_eq_true_iff.1 h
      exact Bool.and_eq_true_iff.2 ⟨hopen, ih hrest⟩
    | gdig cap =>
      obtain ⟨hopen, hrest⟩ := Bool.and_eq_true_iff.1 h
      rw [harmlessFrom]
      cases hcap : capacitySuffices cap with
      | true => exact Bool.and_eq_true_iff.2 ⟨hopen, ih (hcap ▸ hrest)⟩
      | false =>
        obtain rfl : fin = false := by simpa using hopen
        exact ih (hcap ▸ hrest)

/-- The first command of a harmless sequence is no use after finalization, and the rest is harmless from a flag
that `FIN` does not pass. The flag may be ahead of `FIN`: a GDIG that waits for takes has not set it (R154). -/
theorem harmlessFrom_cons {fin : Bool} {i : Instr} {rest : List Instr} {s t : State}
    (h : harmlessFrom fin (i :: rest) = true) (hfin : s.fin = true → fin = true) (hexec : exec i s = .next t) :
    usesAfterFinalize i s = false ∧
      ∃ fin', (t.fin = true → fin' = true) ∧ harmlessFrom fin' rest = true := by
  obtain ⟨hinit, -, hkeep⟩ := finalizedFlagWriters.2 i s t hexec
  have hnotFin : (!fin) = true → s.fin = false := fun hopen => by
    simpa [show fin = false by simpa using hopen] using hfin
  cases i with
  | init => exact ⟨usesAfterFinalize_init s, false, by simp [hinit rfl], h⟩
  | pbyte b =>
    obtain ⟨hopen, hrest⟩ := Bool.and_eq_true_iff.1 h
    refine ⟨?_, fin, by rwa [hkeep (by simp) (by simp)], hrest⟩
    rw [usesAfterFinalize_pbyte, hnotFin hopen]
  | pbytes len =>
    obtain ⟨hopen, hrest⟩ := Bool.and_eq_true_iff.1 h
    refine ⟨?_, fin, by rwa [hkeep (by simp) (by simp)], hrest⟩
    rw [usesAfterFinalize_pbytes, hnotFin hopen]
  | gdig cap =>
    rw [harmlessFrom] at h
    rw [usesAfterFinalize_gdig]
    cases hcap : capacitySuffices cap with
    | true =>
      rw [hcap, if_pos rfl] at h
      obtain ⟨hopen, hrest⟩ := Bool.and_eq_true_iff.1 h
      exact ⟨by rw [hnotFin hopen, Bool.false_and], true, fun _ => rfl, hrest⟩
    | false =>
      have hsmall : ¬ 4 ≤ cap := by rw [← capacitySuffices_iff, hcap]; exact Bool.false_ne_true
      rw [hcap, if_neg Bool.false_ne_true] at h
      exact ⟨Bool.and_false _, fin, by rwa [hkeep (by simp) (by simp [hsmall])], h⟩

/-- A run that answers is its first command and then the rest. -/
theorem execAll_cons_inv {i : Instr} {rest : List Instr} {s t : State} (h : execAll (i :: rest) s = .next t) :
    ∃ u, exec i s = .next u ∧ execAll rest u = .next t := by
  obtain ⟨u, hu⟩ := exec_answers i s
  exact ⟨u, hu, by rwa [execAll_cons hu] at h⟩

/-- A run of a harmless sequence draws no free value. -/
theorem execAll_fresh {fin : Bool} {cs : List Instr} {s t : State} (h : harmlessFrom fin cs = true)
    (hfin : s.fin = true → fin = true) (hrun : execAll cs s = .next t) : t.fresh = s.fresh := by
  induction cs generalizing fin s with
  | nil => cases hrun; rfl
  | cons i rest ih =>
    obtain ⟨u, hexec, hrest⟩ := execAll_cons_inv hrun
    obtain ⟨huse, fin', hfin', hharmless⟩ := harmlessFrom_cons h hfin hexec
    exact (ih hharmless hfin' hrest).trans (exec_fresh huse hexec)

/-- Settles O58: by induction over the sequence, its flag bounding `FIN`. -/
theorem legalRunsDrawNoFreeValue : Obligations.LegalRunsDrawNoFreeValue :=
  ⟨fun _ _ => harmlessFrom_of_legalFrom,
    fun _ _ _ hopen h hrun => execAll_fresh h (by simp [hopen]) hrun⟩

end Sys2Proof.Machine
end

section
/-! The reset event and the idle block (spec/70_reset_and_hazards.md R230, R231, R233). -/

namespace Sys2Proof.Machine

/-- Settles O7, by the branch of a step that finds no word on offer. -/
theorem idleStepWithoutCommandStays : Obligations.IdleStepWithoutCommandStays := fun _ => step_of_cmd_nil

/-- Settles O8, field by field: the reset event writes the persistent state that INIT writes, and keeps the ports. -/
theorem stepResetRestoresInitialState : Obligations.StepResetRestoresInitialState := fun s hrst =>
  ⟨resetEvent s, initialState s, step_of_rst hrst,
    resetEvent_h s, resetEvent_bl s, Memory.read_nil, resetEvent_fin s, resetEvent_phase s, resetEvent_rst s,
    resetEvent_cmd s, resetEvent_din s, resetEvent_takes s, resetEvent_dout s,
    exec_init s, rfl, rfl, rfl, rfl, rfl⟩

end Sys2Proof.Machine
end

section
/-! What a use after finalization works on (spec/93_implementation_defined.md U1, U8; log 5). -/

namespace Sys2Proof.Machine

/-- A consumed state draws one free value: it differs in `H`, `BL`, `BUF` and, by one, in the counter of draws. -/
theorem consumed_eq (s : State) :
    consumed s =
      { s with
        h := (consumed s).h
        bl := (consumed s).bl
        buf := (consumed s).buf
        fresh := s.fresh + 1 } := rfl

/-- Settles O14, by the value of `FIN`: an open state is its own working state, a finalized one works on its
consumed state, whatever `BL` and `BUF` it had. -/
theorem workingStateKeepsTheRest : Obligations.WorkingStateKeepsTheRest := by
  refine fun s => ⟨workingState_open, fun hfin => ?_, fun hfin => ?_⟩ <;> rw [workingState_finalized hfin]
  · exact consumed_eq s
  · exact ⟨consumed_bl s ▸ freeCounter_lowBits _, consumed_buf s ▸ wf_freeBuffer _⟩

end Sys2Proof.Machine
end
